-- ==== Sys2Proof/Word.lean ====
section
/-! DEFINITION. The words of the CHIP-8 core: a byte, the 16-bit word, the 12-bit address field, a nibble and a
register number (spec/00_scope.md R5, R13; spec/30_encoding.md R71). -/

namespace Sys2Proof

/-- An 8-bit value: a general register, a timer, a memory byte, the `kk` field (R5, R71). -/
abbrev Byte := BitVec 8

/-- A 16-bit value: the opcode, I, PC, a stack entry (R5). -/
abbrev Word := BitVec 16

/-- The 12-bit address field `nnn` (R71). -/
abbrev Addr := BitVec 12

/-- A 4-bit unit; an opcode is four of them (R13, R70). -/
abbrev Nibble := BitVec 4

/-- The number of a general register, V0 to VF (R20). -/
abbrev Reg := Fin 16

end Sys2Proof
end

