-- ==== Sys2Proof/Decode.lean ====
section
/-! DEFINITION. The decoder and the encoder (spec/30_encoding.md R70 to R81, R88).  `decode` is total on words and
`decodeBytes` on byte lists; what is no instruction is rejected by name. -/

namespace Sys2Proof

/-! ### Fields (R71) -/

/-- The class nibble `op[15:12]`. -/
def classOf (op : Word) : Nibble := op.extractLsb' 12 4

/-- The register field `x = op[11:8]`. -/
def fieldX (op : Word) : Reg := (op.extractLsb' 8 4).toFin

/-- The register field `y = op[7:4]`. -/
def fieldY (op : Word) : Reg := (op.extractLsb' 4 4).toFin

/-- The nibble field `n = op[3:0]`. -/
def fieldN (op : Word) : Nibble := op.extractLsb' 0 4

/-- The byte field `kk = op[7:0]`. -/
def fieldKk (op : Word) : Byte := op.extractLsb' 0 8

/-- The address field `nnn = op[11:0]`. -/
def fieldNnn (op : Word) : Addr := op.extractLsb' 0 12

/-! ### The opcode map (R77) -/

/-- Class 0 dispatches on the whole low 12 bits. -/
def decodeClass0 (op : Word) : Option Instr :=
  match fieldNnn op with
  | 0x0E0 => some .cls
  | 0x0EE => some .ret
  | _ => none

/-- Class 5 needs a low nibble of 0 (R79). -/
def decodeClass5 (op : Word) : Option Instr :=
  match fieldN op with
  | 0x0 => some (.seReg (fieldX op) (fieldY op))
  | _ => none

/-- Class 8 dispatches on the low nibble. -/
def decodeClass8 (op : Word) : Option Instr :=
  match fieldN op with
  | 0x0 => some (.ldReg (fieldX op) (fieldY op))
  | 0x1 => some (.or (fieldX op) (fieldY op))
  | 0x2 => some (.and (fieldX op) (fieldY op))
  | 0x3 => some (.xor (fieldX op) (fieldY op))
  | 0x4 => some (.addReg (fieldX op) (fieldY op))
  | 0x5 => some (.sub (fieldX op) (fieldY op))
  | 0x6 => some (.shr (fieldX op) (fieldY op))
  | 0x7 => some (.subn (fieldX op) (fieldY op))
  | 0xE => some (.shl (fieldX op) (fieldY op))
  | _ => none

/-- Class 9 needs a low nibble of 0 (R79; the spec's decision D6). -/
def decodeClass9 (op : Word) : Option Instr :=
  match fieldN op with
  | 0x0 => some (.sneReg (fieldX op) (fieldY op))
  | _ => none

/-- Class E dispatches on the low byte. -/
def decodeClassE (op : Word) : Option Instr :=
  match fieldKk op with
  | 0x9E => some (.skp (fieldX op))
  | 0xA1 => some (.sknp (fieldX op))
  | _ => none

/-- Class F dispatches on the low byte. -/
def decodeClassF (op : Word) : Option Instr :=
  match fieldKk op with
  | 0x07 => some (.ldVxDt (fieldX op))
  | 0x0A => some (.ldVxK (fieldX op))
  | 0x15 => some (.ldDtVx (fieldX op))
  | 0x18 => some (.ldStVx (fieldX op))
  | 0x1E => some (.addIVx (fieldX op))
  | 0x29 => some (.ldFVx (fieldX op))
  | 0x33 => some (.ldBVx (fieldX op))
  | 0x55 => some (.ldIVx (fieldX op))
  | 0x65 => some (.ldVxI (fieldX op))
  | _ => none

/-- `Decode : BitVec 16 → Option Instr` (R76, R88): `none` is "unknown" (R80).  The first-level dispatch is on the top
nibble; the last arm is the one value left, 0xF. -/
def decode (op : Word) : Option Instr :=
  match classOf op with
  | 0x0 => decodeClass0 op
  | 0x1 => some (.jp (fieldNnn op))
  | 0x2 => some (.call (fieldNnn op))
  | 0x3 => some (.seImm (fieldX op) (fieldKk op))
  | 0x4 => some (.sneImm (fieldX op) (fieldKk op))
  | 0x5 => decodeClass5 op
  | 0x6 => some (.ldImm (fieldX op) (fieldKk op))
  | 0x7 => some (.addImm (fieldX op) (fieldKk op))
  | 0x8 => decodeClass8 op
  | 0x9 => decodeClass9 op
  | 0xA => some (.ldI (fieldNnn op))
  | 0xB => some (.jpV0 (fieldNnn op))
  | 0xC => some (.rnd (fieldX op) (fieldKk op))
  | 0xD => some (.drw (fieldX op) (fieldY op) (fieldN op))
  | 0xE => decodeClassE op
  | _ => decodeClassF op

/-! ### Bytes (R50, R74) -/

/-- The opcode of two consecutive bytes, the first one high (R50). -/
def opcodeOfBytes (high low : Byte) : Word := high ++ low

/-- The byte of an opcode that lies at the lower address (R50). -/
def highByte (op : Word) : Byte := op.extractLsb' 8 8

/-- The byte of an opcode that lies at the higher address (R50). -/
def lowByte (op : Word) : Byte := op.extractLsb' 0 8

/-- Why a byte list does not begin with an instruction. -/
inductive DecodeError where
  /-- Fewer than the two bytes every instruction has (R70). -/
  | truncated
  /-- The opcode matches no row of R78 (R80). -/
  | unknownOpcode (op : Word)
  deriving DecidableEq, Repr

/-- Decodes the instruction a byte list begins with, and gives the bytes after it.  It always consumes exactly two bytes
(R70). -/
def decodeBytes : List Byte → Except DecodeError (Instr × List Byte)
  | high :: low :: rest =>
    match decode (opcodeOfBytes high low) with
    | some i => .ok (i, rest)
    | none => .error (.unknownOpcode (opcodeOfBytes high low))
  | _ => .error .truncated

/-- The word of an opcode-table row: its low `nbits` bits, the bits above them zero. -/
def tableWord (nbits w : Nat) : Word := BitVec.ofNat 16 (w % 2 ^ nbits)

/-- The instruction the decoder reads from the word `w` of an opcode-table row, laid out as the core stores it. -/
def decodeTableWord (nbits w : Nat) : Option Instr :=
  match decodeBytes [highByte (tableWord nbits w), lowByte (tableWord nbits w)] with
  | .ok (i, _) => some i
  | .error _ => none

/-! ### The encoder, from the patterns of R78 -/

/-- The four bits of a register field. -/
def regBits (x : Reg) : Nibble := BitVec.ofFin x

/-- Class, `x`, `y`, low nibble. -/
def packXyn (c : Nibble) (x y : Reg) (n : Nibble) : Word := c ++ regBits x ++ regBits y ++ n

/-- Class, `x`, low byte. -/
def packXkk (c : Nibble) (x : Reg) (kk : Byte) : Word := c ++ regBits x ++ kk

/-- Class, low 12 bits. -/
def packNnn (c : Nibble) (nnn : Addr) : Word := c ++ nnn

/-- The opcode of an instruction. -/
def encode : Instr → Word
  | .cls => 0x00E0
  | .ret => 0x00EE
  | .jp nnn => packNnn 0x1 nnn
  | .call nnn => packNnn 0x2 nnn
  | .seImm x kk => packXkk 0x3 x kk
  | .sneImm x kk => packXkk 0x4 x kk
  | .seReg x y => packXyn 0x5 x y 0x0
  | .ldImm x kk => packXkk 0x6 x kk
  | .addImm x kk => packXkk 0x7 x kk
  | .ldReg x y => packXyn 0x8 x y 0x0
  | .or x y => packXyn 0x8 x y 0x1
  | .and x y => packXyn 0x8 x y 0x2
  | .xor x y => packXyn 0x8 x y 0x3
  | .addReg x y => packXyn 0x8 x y 0x4
  | .sub x y => packXyn 0x8 x y 0x5
  | .shr x y => packXyn 0x8 x y 0x6
  | .subn x y => packXyn 0x8 x y 0x7
  | .shl x y => packXyn 0x8 x y 0xE
  | .sneReg x y => packXyn 0x9 x y 0x0
  | .ldI nnn => packNnn 0xA nnn
  | .jpV0 nnn => packNnn 0xB nnn
  | .rnd x kk => packXkk 0xC x kk
  | .drw x y n => packXyn 0xD x y n
  | .skp x => packXkk 0xE x 0x9E
  | .sknp x => packXkk 0xE x 0xA1
  | .ldVxDt x => packXkk 0xF x 0x07
  | .ldVxK x => packXkk 0xF x 0x0A
  | .ldDtVx x => packXkk 0xF x 0x15
  | .ldStVx x => packXkk 0xF x 0x18
  | .addIVx x => packXkk 0xF x 0x1E
  | .ldFVx x => packXkk 0xF x 0x29
  | .ldBVx x => packXkk 0xF x 0x33
  | .ldIVx x => packXkk 0xF x 0x55
  | .ldVxI x => packXkk 0xF x 0x65

end Sys2Proof
end

