-- ==== Sys2Proof/Config.lean ====
section
/-! DEFINITION. What is fixed for the machine: the sizes of spec/00_scope.md R5, the values of the open parameter
`FX1E_OVERFLOW` (R6), the opaque free values, and the conventional font that a host may pass as `FONT_IMAGE`. -/

namespace Sys2Proof

/-- `MEM_SIZE`: memory is 4096 bytes (R5, R30). -/
def Config.memSize : Nat := 4096

/-- `ADDR_MAX`: the last address, 0xFFF (R5). -/
def Config.addrMax : Nat := 0xFFF

/-- `PROGRAM_START`: where the ROM is loaded and where PC starts (R5, R230, R233). -/
def Config.programStart : Word := 0x200

/-- The values of the open parameter `FX1E_OVERFLOW` (R6, D9). -/
inductive Fx1eOverflow where
  /-- The operation table: I wraps modulo 4096 and VF records it (R184). -/
  | wrap
  /-- §3 and §9 of the source: the sum past 0xFFF raises AddressOutOfRange (R184). -/
  | fault
  deriving DecidableEq, Repr

/-- The `RandomSource` oracle (R6, R153, D19): the byte of the k-th draw.  It has no body, so nothing can be proved of
its value: a free value.  DESIGN CHOICE, safe (assumption log 1). -/
opaque Config.randomByte : Nat → Byte

/-- The 16-bit `fault_info` port for an `info` that does not fit it.  R184 allows a sum of up to 0x100FE and R38 gives
the port 16 bits; the spec does not say what the port shows then, so this is a free value.  DESIGN CHOICE, safe
(assumption log 2). -/
opaque Config.faultInfoTooWide : Nat → Word

/-- PRESUMED, unsafe for a machine constructed with it (assumption log 3): the conventional 80-byte digit font of spec/93_implementation_defined.md G8.  It is
not in memory after reset (R231, D18): a host may pass it as `FONT_IMAGE`. -/
def Config.conventionalFont : List Byte :=
  [0xF0, 0x90, 0x90, 0x90, 0xF0, 0x20, 0x60, 0x20, 0x20, 0x70] ++
  [0xF0, 0x10, 0xF0, 0x80, 0xF0, 0xF0, 0x10, 0xF0, 0x10, 0xF0] ++
  [0x90, 0x90, 0xF0, 0x10, 0x10, 0xF0, 0x80, 0xF0, 0x10, 0xF0] ++
  [0xF0, 0x80, 0xF0, 0x90, 0xF0, 0xF0, 0x10, 0x20, 0x40, 0x40] ++
  [0xF0, 0x90, 0xF0, 0x90, 0xF0, 0xF0, 0x90, 0xF0, 0x10, 0xF0] ++
  [0xF0, 0x90, 0xF0, 0x90, 0x90, 0xE0, 0x90, 0xE0, 0x90, 0xE0] ++
  [0xF0, 0x80, 0x80, 0x80, 0xF0, 0xE0, 0x90, 0x90, 0x90, 0xE0] ++
  [0xF0, 0x80, 0xF0, 0x80, 0xF0, 0xF0, 0x80, 0xF0, 0x80, 0x80]

end Sys2Proof
end

