-- ==== Sys2Proof/Machine/State.lean ====
section
/-! DEFINITION. The state of the core as plain data (spec/10_state.md R20 to R40), the reasons a step can stop
(spec/60_exceptions.md R200) and the state after construction (spec/70_reset_and_hazards.md R230). -/

namespace Sys2Proof.Machine

/-- Memory: the (address, byte) cells that differ from what an unlisted address reads as (R30). -/
abbrev Memory := List Host.Cell

/-- What an address that is not listed reads as: memory is "initially zero" (R30). -/
def unlistedByte : Byte := 0

/-- The canonical form: addresses strictly rising and inside 0x000 to 0xFFF, no cell equal to an unlisted one. -/
abbrev Memory.wf (m : Memory) : Prop :=
  m.Pairwise (fun a b => a.1 < b.1) ∧ ∀ c ∈ m, c.1 ≤ Config.addrMax ∧ c.2 ≠ unlistedByte

/-- One row of the framebuffer, 64 one-bit cells: bit `x` is the cell of column `x` (R31). -/
abbrev PixelRow := BitVec 64

/-- The 64×32 framebuffer: row `y`, bit `x` is the cell `fb[x + 64*y]` (R31).  DESIGN CHOICE, safe (assumption log 9). -/
abbrev Framebuffer := Vector PixelRow 32

/-- The outcome of the last step that was not a FAULT, as the `result` and `draw` ports show it (R34, R35, R38). -/
inductive StepResult where
  /-- No step has been made since construction; the draw flag is 0 (R230). -/
  | idle
  /-- COMPLETED(draw): the instruction's writes, the new PC and the timer decay are committed (R34). -/
  | completed (draw : Bool)
  /-- BLOCKED: Fx0A found no key pressed and committed nothing (R34, R181). -/
  | blocked
  deriving DecidableEq, Repr

/-- The state of the core.  The fields down to `key` are R40's record.  `result` is the output of the last step (R34,
R38), `fx1eOverflow` is the open parameter of R6, held here because `exec` has no other argument for it, and `draws`
counts the bytes taken from the random source.  DESIGN CHOICE: these three are the model's own (assumption log 1, 4
and 5; log 1 is safe, log 4 and 5 say where they are unsafe). -/
structure State where
  /-- V0 to VF (R20). -/
  v : Vector Byte 16
  /-- The index register I (R24). -/
  i : Word
  /-- The program counter PC (R25). -/
  pc : Word
  /-- The stack pointer SP, 0 to 16: the number of entries in use (R26). -/
  sp : Fin 17
  /-- The 16 return addresses (R27). -/
  stack : Vector Word 16
  /-- The delay timer DT (R28). -/
  dt : Byte
  /-- The sound timer ST (R29). -/
  st : Byte
  /-- The 4096 bytes of memory (R30). -/
  mem : Memory
  /-- The framebuffer (R31). -/
  fb : Framebuffer
  /-- The keypad flags, written by the host only (R32). -/
  key : Vector Bool 16
  /-- The outcome of the last step (R34, R38). -/
  result : StepResult
  /-- The parameter `FX1E_OVERFLOW` (R6). -/
  fx1eOverflow : Fx1eOverflow
  /-- How many bytes Cxkk has drawn (R153). -/
  draws : Nat
  deriving DecidableEq, Repr

/-- What every fault carries (R200, D3). -/
structure FaultRecord where
  /-- `fault_pc`: the address A of the instruction. -/
  pc : Word
  /-- `fault_opcode`: the fetched opcode, 0x0000 when the fetch itself faulted. -/
  opcode : Word
  /-- `fault_info`: the number R200 gives for the kind, unbounded (R184 allows up to 0x100FE). -/
  info : Nat
  deriving DecidableEq, Repr

/-- The five fault kinds (R200).  A fault commits nothing and there is no trap entry (R201, R202), so the state after
it is the state before it.  Each one is the spec's own outcome of the step; ending the run there is R203's and R242's
rule, and safe. -/
inductive Fault where
  /-- Code 1, raised by decode on an opcode outside R78 (R80).  Safe. -/
  | unknownOpcode (r : FaultRecord)
  /-- Code 2, raised by 2nnn with SP = 16 (R111).  Safe. -/
  | stackOverflow (r : FaultRecord)
  /-- Code 3, raised by 00EE with SP = 0 (R101).  Safe. -/
  | stackUnderflow (r : FaultRecord)
  /-- Code 4, raised by the fetch (R75), Bnnn (R152), Dxyn (R154), Fx33, Fx55, Fx65 (R186 to R188), and Fx1E when the
  parameter is FAULT (R184).  Safe. -/
  | addressOutOfRange (r : FaultRecord)
  /-- Code 5, raised by Ex9E and ExA1 with Vx above 0x0F (R172).  Safe. -/
  | stateFault (r : FaultRecord)
  deriving DecidableEq, Repr

/-- Why the model gives no meaning.  Every instruction has its meaning, so no step answers this. -/
inductive Refusal where
  /-- Raised by an arm of `exec` that has no meaning yet; there is none.  Safe. -/
  | notModelled (mnemonic : String)
  deriving DecidableEq, Repr

/-- The state after construction: "all fields zeroed except PC=0x200" (R230), with the default parameters of R6
(`FX1E_OVERFLOW = WRAP`, no font).  `result` is idle (R230: the draw flag is 0 until the first step). -/
def State.reset : State where
  v := Vector.replicate 16 0
  i := 0
  pc := Config.programStart
  sp := 0
  stack := Vector.replicate 16 0
  dt := 0
  st := 0
  mem := []
  fb := Vector.replicate 32 0
  key := Vector.replicate 16 false
  result := .idle
  fx1eOverflow := .wrap
  draws := 0

end Sys2Proof.Machine
end

