-- ==== Sys2Proof/Machine/Ops.lean ====
section
/-! DEFINITION. The named operations of the core: memory, registers, framebuffer, the outcomes of a step (completing,
blocking, raising a fault) and the fetch (spec/20_memory.md, spec/30_encoding.md R74 to R86, spec/60_exceptions.md). -/

namespace Sys2Proof.Machine

/-- What a step answers. -/
abbrev Result := Host.Outcome State Fault Refusal

/-! ### Memory (R53, R54) -/

/-- `MemRead(addr, 1)`. -/
def memRead : Memory → Nat → Byte
  | [], _ => unlistedByte
  | (k, c) :: m, a => if k = a then c else memRead m a

/-- Puts a cell in front of the cells above it, unless it reads as an unlisted address does. -/
def consCell (a : Nat) (b : Byte) (m : Memory) : Memory :=
  if b = unlistedByte then m else (a, b) :: m

/-- `MemWrite(addr, 1, v)`: changes only the byte written (R54) and keeps the canonical form. -/
def memWrite : Memory → Nat → Byte → Memory
  | [], a, b => consCell a b []
  | (k, c) :: m, a, b =>
    if a < k then consCell a b ((k, c) :: m)
    else if a = k then consCell a b m
    else (k, c) :: memWrite m a b

/-- The `n` bytes from `a` upward. -/
def memReadList (m : Memory) (a : Nat) : Nat → List Byte
  | 0 => []
  | n + 1 => memRead m a :: memReadList m (a + 1) n

/-- Writes the bytes from `a` upward; a step commits them together (R63). -/
def memWriteList (m : Memory) (a : Nat) : List Byte → Memory
  | [] => m
  | b :: bs => memWriteList (memWrite m a b) (a + 1) bs

/-- The range check of R56: no byte at all, or the last one at or below 0xFFF.  The sum is unbounded. -/
def inRange (base count : Nat) : Bool :=
  decide (count = 0) || decide (base + count ≤ Config.memSize)

/-- The first address of a range from `base` that is above 0xFFF (R56, R189). -/
def firstOutOfRange (base : Nat) : Nat := max base Config.memSize

/-- Stores bytes from `a` upward. -/
def storeBytes (a : Nat) (bs : List Byte) (s : State) : State :=
  { s with mem := memWriteList s.mem a bs }

/-! ### General registers (R20) -/

/-- `V[x]`. -/
def readV (s : State) (x : Reg) : Byte := s.v[x]

/-- `V[x] <- b`. -/
def writeV (x : Reg) (b : Byte) (s : State) : State := { s with v := s.v.set x b }

/-- The bytes of V0 to Vx (Fx55, R187). -/
def regBytes (s : State) (x : Reg) : List Byte := s.v.toList.take (x.val + 1)

/-- Sets the registers from number `k` upward to the bytes (Fx65, R188). -/
def setRegs (v : Vector Byte 16) (k : Nat) : List Byte → Vector Byte 16
  | [] => v
  | b :: bs => setRegs (v.setIfInBounds k b) (k + 1) bs

/-! ### Framebuffer (R31, R154, R155) -/

/-- The cell of column `x` and row `y`. -/
def pixel (fb : Framebuffer) (x : Fin 64) (y : Fin 32) : Bool := fb[y].getLsbD x

/-- A column reduced modulo 64 (R155). -/
def wrapColumn (x : Nat) : Fin 64 := Fin.ofNat 64 x

/-- A row reduced modulo 32 (R155). -/
def wrapRow (y : Nat) : Fin 32 := Fin.ofNat 32 y

/-- XORs 1 into one cell; the collision becomes true where the cell was 1 (R154). -/
def plot (x : Fin 64) (y : Fin 32) (p : Framebuffer × Bool) : Framebuffer × Bool :=
  (p.1.set y (p.1[y] ^^^ BitVec.twoPow 64 x), p.2 || pixel p.1 x y)

/-- One sprite byte drawn from column `x0` of row `y`: bit 7 is column 0 (R156; the spec's decision D13). -/
def drawRow (x0 : Nat) (y : Fin 32) (b : Byte) (p : Framebuffer × Bool) : Framebuffer × Bool :=
  (List.range 8).foldl
    (fun p col => if b.getLsbD (7 - col) then plot (wrapColumn (x0 + col)) y p else p) p

/-- The sprite's bytes drawn one row each, from row `y0` downward (R154, R155). -/
def drawSprite (x0 y0 : Nat) : List Byte → Framebuffer × Bool → Framebuffer × Bool
  | [], p => p
  | b :: bs, p => drawSprite x0 (y0 + 1) bs (drawRow x0 (wrapRow y0) b p)

/-! ### The outcomes of a step (R34) -/

/-- One timer's end-of-step decay (R215). -/
def decay (t : Byte) : Byte := if t = 0 then 0 else t - 1

/-- What a COMPLETED step commits besides the instruction's own writes: the PC (R86), the decay of both timers, after
those writes (R215), and the draw flag (R35).  DESIGN CHOICE, safe: R84 writes this after Execute (assumption log 10). -/
def commit (draw : Bool) (target : Word) (s : State) : State :=
  { s with pc := target, dt := decay s.dt, st := decay s.st, result := .completed draw }

/-- COMPLETED with the PC the instruction set (R84, R86). -/
def complete (draw : Bool) (target : Word) (s : State) : Result := .next (commit draw target s)

/-- COMPLETED with the PC advanced by 2 (R86), in 16 bits (assumption log 11). -/
def advance (s : State) : Result := complete false (s.pc + 2) s

/-- COMPLETED with the PC advanced by 2 and the draw flag set (R35). -/
def advanceDraw (s : State) : Result := complete true (s.pc + 2) s

/-- A conditional skip: A + 4 when the condition holds, A + 2 otherwise (R87). -/
def skipIf (condition : Bool) (s : State) : Result :=
  complete false (s.pc + if condition then 4 else 2) s

/-- BLOCKED: nothing is committed and the timers do not decay (R181); only the outcome is reported (R34). -/
def block (s : State) : Result := .next { s with result := .blocked }

/-- Raising a fault, the core's one form of exception: it commits nothing, saves nothing and goes to no handler; the
fault is the result of the step, with the PC, the opcode and the info (R201, R202, D3).  DEDUCED, safe: the opcode is the
encoding of the decoded instruction, which is the fetched word (assumption log 12; log 6 for the end of the run). -/
def raise (kind : FaultRecord → Fault) (i : Instr) (info : Nat) (s : State) : Result :=
  .fault (kind { pc := s.pc, opcode := encode i, info := info })

/-- The fault of an access range from `base` that passes 0xFFF (R56, R189). -/
def raiseRange (i : Instr) (base : Nat) (s : State) : Result :=
  raise .addressOutOfRange i (firstOutOfRange base) s

/-! ### Fetch and decode (R74, R75, R80, R85) -/

/-- The opcode at an address, high byte first (R50, R74). -/
def opcodeAt (m : Memory) (a : Nat) : Word := opcodeOfBytes (memRead m a) (memRead m (a + 1))

/-- The fetch: `A ≤ 0xFFE` or AddressOutOfRange with opcode 0x0000 (R75). -/
def fetch (s : State) : Except Fault Word :=
  if inRange s.pc.toNat 2 then .ok (opcodeAt s.mem s.pc.toNat)
  else .error (.addressOutOfRange { pc := s.pc, opcode := 0, info := firstOutOfRange s.pc.toNat })

/-- Fetch, then decode: the first check that fails is the fault reported (R85, R205). -/
def fetchInstr (s : State) : Except Fault Instr :=
  match fetch s with
  | .error f => .error f
  | .ok op =>
    match decode op with
    | some i => .ok i
    | none => .error (.unknownOpcode { pc := s.pc, opcode := op, info := 0 })

/-- Places an opcode at an address, high byte first (R50). -/
def placeOpcode (m : Memory) (a : Nat) (op : Word) : Memory :=
  memWriteList m a [highByte op, lowByte op]

end Sys2Proof.Machine
end

