-- ==== Sys2Proof/Machine/Flags.lean ====
section
/-! DEFINITION. Every flag computation of the core; VF is the only flag (spec/10_state.md R22, spec/42_family8_alu.md
R134 to R139, spec/45_familyF_timers_index_memory.md R184). -/

namespace Sys2Proof.Machine

/-- The register VF (R22). -/
def regVF : Reg := 0xF

/-- A flag as VF holds it: 1 or 0. -/
def flagByte (flag : Bool) : Byte := if flag then 1 else 0

/-- `VF <- flag`. -/
def writeFlag (flag : Bool) (s : State) : State := writeV regVF (flagByte flag) s

/-- 8xy4: "VF is 1 iff the unmodded sum exceeds 255" (R134). -/
def carryFlag (a b : Byte) : Bool := decide (255 < a.toNat + b.toNat)

/-- 8xy5 and 8xy7: strictly greater, so equal operands give 0 (R135, R137). -/
def greaterFlag (a b : Byte) : Bool := decide (b.toNat < a.toNat)

/-- 8xy6: the least-significant bit before the shift (R136). -/
def lowBitFlag (a : Byte) : Bool := a.getLsbD 0

/-- 8xyE: the most-significant bit before the shift (R138). -/
def highBitFlag (a : Byte) : Bool := a.getLsbD 7

/-- Fx1E: the unbounded sum exceeds 0xFFF (R184). -/
def indexOverflow (sum : Nat) : Bool := decide (Config.addrMax < sum)

end Sys2Proof.Machine
end

