-- ==== Sys2Proof/Machine/Operands.lean ====
section
/-! DEFINITION. Every operand form of the core: zero-extended immediates (spec/30_encoding.md R73), addresses formed from
I, V0 and Vx, the keypad, the decimal digits of Fx33. -/

namespace Sys2Proof.Machine

/-- An address immediate as a PC or an index: `zext_16(nnn)` (R73). -/
def zextAddr (nnn : Addr) : Word := nnn.setWidth 16

/-- The index register as an address, unbounded arithmetic following (R56). -/
def indexAddr (s : State) : Nat := s.i.toNat

/-- Fx1E's sum `I + V[x]`, unbounded (R184). -/
def indexSum (s : State) (x : Reg) : Nat := s.i.toNat + (readV s x).toNat

/-- Bnnn's target `nnn + V[0]`, unbounded (R152). -/
def indexedTarget (s : State) (nnn : Addr) : Nat := nnn.toNat + (readV s 0).toNat

/-- Fx29's digit sprite address `V[x] * 5`, computed exactly (R185). -/
def digitAddr (b : Byte) : Word := BitVec.ofNat 16 (b.toNat * 5)

/-- Fx33's three bytes: hundreds, tens, ones (R186). -/
def decimalDigits (b : Byte) : List Byte :=
  [BitVec.ofNat 8 (b.toNat / 100), BitVec.ofNat 8 (b.toNat / 10 % 10), BitVec.ofNat 8 (b.toNat % 10)]

/-- A key index is in the keypad's domain, 0x0 to 0xF (R172). -/
def keyInDomain (k : Byte) : Bool := decide (k.toNat ≤ 0xF)

/-- `key[k]`, for k in 0 to 15 (R32). -/
def keyPressed (s : State) (k : Nat) : Bool := s.key.getD k false

/-- The highest pressed key, found by "scanning keys 0..15 and keeping the last match" (R181). -/
def highestKey (s : State) : Option Nat :=
  (List.range 16).foldl (fun found k => if keyPressed s k then some k else found) none

/-- The sprite's `n` bytes, read from memory at I (R154). -/
def spriteBytes (s : State) (n : Nibble) : List Byte := memReadList s.mem (indexAddr s) n.toNat

end Sys2Proof.Machine
end

