-- ==== Sys2Proof/Machine/Alu.lean ====
section
/-! DEFINITION. Class 8: the register-to-register ALU (spec/42_family8_alu.md).  Operands are read from the state at the
start of the step, VF is written first and Vx second, so the Vx write holds when x = 0xF (spec/00_scope.md R11; R140;
D8). -/

namespace Sys2Proof.Machine

/-- 8xy0: copy (R130). -/
def execLdReg (x y : Reg) (s : State) : Result := advance (writeV x (readV s y) s)

/-- 8xy1: bitwise OR; no flag (R131). -/
def execOr (x y : Reg) (s : State) : Result := advance (writeV x (readV s x ||| readV s y) s)

/-- 8xy2: bitwise AND; no flag (R132). -/
def execAnd (x y : Reg) (s : State) : Result := advance (writeV x (readV s x &&& readV s y) s)

/-- 8xy3: bitwise XOR; no flag (R133). -/
def execXor (x y : Reg) (s : State) : Result := advance (writeV x (readV s x ^^^ readV s y) s)

/-- A flag-writing ALU result: VF, then Vx. -/
def writeFlagThenV (x : Reg) (flag : Bool) (result : Byte) (s : State) : State :=
  writeV x result (writeFlag flag s)

/-- 8xy4: add; VF = carry (R134). -/
def execAddReg (x y : Reg) (s : State) : Result :=
  advance (writeFlagThenV x (carryFlag (readV s x) (readV s y)) (readV s x + readV s y) s)

/-- 8xy5: Vx − Vy; VF = (Vx > Vy) (R135). -/
def execSub (x y : Reg) (s : State) : Result :=
  advance (writeFlagThenV x (greaterFlag (readV s x) (readV s y)) (readV s x - readV s y) s)

/-- 8xy6: Vx shifted right by one; VF = the bit shifted out; the y field is not read (R136). -/
def execShr (x _y : Reg) (s : State) : Result :=
  advance (writeFlagThenV x (lowBitFlag (readV s x)) (readV s x >>> 1) s)

/-- 8xy7: Vy − Vx; VF = (Vy > Vx) (R137). -/
def execSubn (x y : Reg) (s : State) : Result :=
  advance (writeFlagThenV x (greaterFlag (readV s y) (readV s x)) (readV s y - readV s x) s)

/-- 8xyE: Vx shifted left by one; VF = the bit shifted out; the y field is not read (R138). -/
def execShl (x _y : Reg) (s : State) : Result :=
  advance (writeFlagThenV x (highBitFlag (readV s x)) (readV s x <<< 1) s)

end Sys2Proof.Machine
end

