-- ==== Sys2Proof/Machine/Class0.lean ====
section
/-! DEFINITION. Class 0: clear screen and return (spec/40_family0_system.md). -/

namespace Sys2Proof.Machine

/-- 00E0: every framebuffer cell becomes 0 and the draw flag is set (R100). -/
def execCls (s : State) : Result := advanceDraw { s with fb := Vector.replicate 32 0 }

/-- 00EE: pops the entry at the decremented stack pointer, which is not cleared; StackUnderflow at 0 (R101, D5). -/
def execRet (s : State) : Result :=
  if s.sp.val = 0 then raise .stackUnderflow .ret 0 s
  else complete false (s.stack.getD (s.sp.val - 1) 0) { s with sp := Fin.ofNat 17 (s.sp.val - 1) }

end Sys2Proof.Machine
end

