-- ==== Sys2Proof/Machine/Flow.lean ====
section
/-! DEFINITION. Classes 1 to 7: jump, call, skips on immediates, immediate loads and adds
(spec/41_family1-7_flow_and_immediate.md). -/

namespace Sys2Proof.Machine

/-- 1nnn: jump (R110). -/
def execJp (nnn : Addr) (s : State) : Result := complete false (zextAddr nnn) s

/-- 2nnn: pushes A + 2 and jumps; StackOverflow at 16 (R111, D4). -/
def execCall (nnn : Addr) (s : State) : Result :=
  if s.sp.val = 16 then raise .stackOverflow (.call nnn) 16 s
  else complete false (zextAddr nnn)
    { s with stack := s.stack.setIfInBounds s.sp.val (s.pc + 2), sp := Fin.ofNat 17 (s.sp.val + 1) }

/-- 3xkk: skip if Vx equals the immediate (R112). -/
def execSeImm (x : Reg) (kk : Byte) (s : State) : Result := skipIf (readV s x == kk) s

/-- 4xkk: skip if Vx differs from the immediate (R113). -/
def execSneImm (x : Reg) (kk : Byte) (s : State) : Result := skipIf (readV s x != kk) s

/-- 5xy0: skip if Vx equals Vy (R114). -/
def execSeReg (x y : Reg) (s : State) : Result := skipIf (readV s x == readV s y) s

/-- 6xkk: load the immediate (R115). -/
def execLdImm (x : Reg) (kk : Byte) (s : State) : Result := advance (writeV x kk s)

/-- 7xkk: add the immediate modulo 256, no flag (R116). -/
def execAddImm (x : Reg) (kk : Byte) (s : State) : Result := advance (writeV x (readV s x + kk) s)

end Sys2Proof.Machine
end

