-- ==== Sys2Proof/Machine/Keypad.lean ====
section
/-! DEFINITION. Class E: skip on key state (spec/44_familyE_keypad_skip.md). -/

namespace Sys2Proof.Machine

/-- Ex9E: skip if key Vx is pressed; StateFault, with the index, above 0x0F (R170, R172). -/
def execSkp (x : Reg) (s : State) : Result :=
  if keyInDomain (readV s x) then skipIf (keyPressed s (readV s x).toNat) s
  else raise .stateFault (.skp x) (readV s x).toNat s

/-- ExA1: skip if key Vx is not pressed; StateFault, with the index, above 0x0F (R171, R172). -/
def execSknp (x : Reg) (s : State) : Result :=
  if keyInDomain (readV s x) then skipIf (!keyPressed s (readV s x).toNat) s
  else raise .stateFault (.sknp x) (readV s x).toNat s

end Sys2Proof.Machine
end

