-- ==== Sys2Proof/Machine/Misc.lean ====
section
/-! DEFINITION. Classes 9 to D: register skip, index load, indexed jump, random byte, sprite draw
(spec/43_family9-D_misc.md). -/

namespace Sys2Proof.Machine

/-- 9xy0: skip if Vx differs from Vy (R150). -/
def execSneReg (x y : Reg) (s : State) : Result := skipIf (readV s x != readV s y) s

/-- Annn: load the index (R151). -/
def execLdI (nnn : Addr) (s : State) : Result := advance { s with i := zextAddr nnn }

/-- Bnnn: jump to nnn + V0; AddressOutOfRange, with the target, past 0xFFF (R152, D10). -/
def execJpV0 (nnn : Addr) (s : State) : Result :=
  if indexedTarget s nnn ≤ Config.addrMax then
    complete false (BitVec.ofNat 16 (indexedTarget s nnn)) s
  else raise .addressOutOfRange (.jpV0 nnn) (indexedTarget s nnn) s

/-- Cxkk: one draw from the random source, masked (R153).  The byte is the free value of assumption log 1. -/
def execRnd (x : Reg) (kk : Byte) (s : State) : Result :=
  advance (writeV x (Config.randomByte s.draws &&& kk) { s with draws := s.draws + 1 })

/-- The framebuffer and the collision after drawing the sprite at I, `n` rows, at (Vx, Vy) (R154, R157, R158). -/
def drawnSprite (x y : Reg) (n : Nibble) (s : State) : Framebuffer × Bool :=
  drawSprite (readV s x).toNat (readV s y).toNat (spriteBytes s n) (s.fb, false)

/-- Dxyn: the whole byte range is checked, the coordinates and the sprite are read, the cells are XORed, then VF gets
the collision; the draw flag is set (R154 to R160). -/
def execDrw (x y : Reg) (n : Nibble) (s : State) : Result :=
  if inRange (indexAddr s) n.toNat then
    advanceDraw (writeFlag (drawnSprite x y n s).2 { s with fb := (drawnSprite x y n s).1 })
  else raiseRange (.drw x y n) (indexAddr s) s

end Sys2Proof.Machine
end

