-- ==== Sys2Proof/Machine/TimersIndex.lean ====
section
/-! DEFINITION. Class F: timers, key wait, index arithmetic, BCD and block transfer
(spec/45_familyF_timers_index_memory.md). -/

namespace Sys2Proof.Machine

/-- Fx07: read the delay timer, before this step's decay (R180). -/
def execLdVxDt (x : Reg) (s : State) : Result := advance (writeV x s.dt s)

/-- Fx0A: the highest pressed key into Vx; BLOCKED when no key is pressed (R181). -/
def execLdVxK (x : Reg) (s : State) : Result :=
  match highestKey s with
  | none => block s
  | some k => advance (writeV x (BitVec.ofNat 8 k) s)

/-- Fx15: set the delay timer; the step's own decay applies to it (R182). -/
def execLdDtVx (x : Reg) (s : State) : Result := advance { s with dt := readV s x }

/-- Fx18: set the sound timer; the step's own decay applies to it (R183). -/
def execLdStVx (x : Reg) (s : State) : Result := advance { s with st := readV s x }

/-- Fx1E: add Vx to I.  VF is always written: the overflow under WRAP, 0 under FAULT when the step completes (R184).
DEDUCED, unsafe: R21 and R238 name VF under WRAP only (assumption log 13). -/
def execAddIVx (x : Reg) (s : State) : Result :=
  match s.fx1eOverflow with
  | .wrap =>
    advance { writeFlag (indexOverflow (indexSum s x)) s with
      i := BitVec.ofNat 16 (indexSum s x % Config.memSize) }
  | .fault =>
    if indexOverflow (indexSum s x) then raise .addressOutOfRange (.addIVx x) (indexSum s x) s
    else advance { writeFlag false s with i := BitVec.ofNat 16 (indexSum s x) }

/-- Fx29: point I at the digit sprite, Vx × 5, with no mask (R185). -/
def execLdFVx (x : Reg) (s : State) : Result := advance { s with i := digitAddr (readV s x) }

/-- Fx33: the decimal digits of Vx at I, I + 1, I + 2 (R186). -/
def execLdBVx (x : Reg) (s : State) : Result :=
  if inRange (indexAddr s) 3 then
    advance (storeBytes (indexAddr s) (decimalDigits (readV s x)) s)
  else raiseRange (.ldBVx x) (indexAddr s) s

/-- Fx55: V0 to Vx into memory from I; I is unchanged (R187). -/
def execLdIVx (x : Reg) (s : State) : Result :=
  if inRange (indexAddr s) (x.val + 1) then
    advance (storeBytes (indexAddr s) (regBytes s x) s)
  else raiseRange (.ldIVx x) (indexAddr s) s

/-- Fx65: memory from I into V0 to Vx; I is unchanged (R188). -/
def execLdVxI (x : Reg) (s : State) : Result :=
  if inRange (indexAddr s) (x.val + 1) then
    advance { s with v := setRegs s.v 0 (memReadList s.mem (indexAddr s) (x.val + 1)) }
  else raiseRange (.ldVxI x) (indexAddr s) s

end Sys2Proof.Machine
end

