-- ==== Sys2Proof/Machine/Step.lean ====
section
/-! DEFINITION. One step of the core: "fetch, decode, execute, advance, decay-timers" (spec/30_encoding.md R84).  The
advance and the decay belong to a COMPLETED step alone, and stand in `complete` (Ops.lean), which every completing
meaning ends in. -/

namespace Sys2Proof.Machine

/-- One step (R84): the fetch and decode faults first, then the instruction (R85). -/
def step (s : State) : Host.Outcome State Fault Refusal :=
  match fetchInstr s with
  | .error f => .fault f
  | .ok i => exec i s

/-- The state with the word of an opcode-table row stored, high byte first, where the next step fetches: at PC.  Where
PC is above 0xFFE there is no memory to store it in, and the state is left as it is.  DEDUCED, safe: it stands for the
host's load of a program (R233; assumption log 8). -/
def State.withFetchWord (s : State) (nbits w : Nat) : State :=
  if inRange s.pc.toNat 2 then { s with mem := placeOpcode s.mem s.pc.toNat (tableWord nbits w) } else s

end Sys2Proof.Machine
end

