-- ==== Sys2Proof/Machine/Ports.lean ====
section
/-! DEFINITION. The output ports of the block and the debug snapshot (spec/10_state.md R34 to R38, spec/60_exceptions.md
R200). -/

namespace Sys2Proof.Machine

/-- `draw`: 1 exactly when the last step completed with its draw flag set (R35). -/
def drawPort (s : State) : Bool := s.result == .completed true

/-- `sound_on`: ST ≠ 0 (R36, D21). -/
def soundOn (s : State) : Bool := s.st != 0

/-- `fb_out`, one cell: `fb[c]` at column `c mod 64` and row `c div 64` (R31, R38). -/
def fbCell (s : State) (c : Fin 2048) : Bool := pixel s.fb (wrapColumn c.val) (wrapRow (c.val / 64))

/-- `fault_kind`: the code of a fault (R200, D2).  Codes 6 and 7 are never driven. -/
def faultKind : Fault → BitVec 3
  | .unknownOpcode _ => 1
  | .stackOverflow _ => 2
  | .stackUnderflow _ => 3
  | .addressOutOfRange _ => 4
  | .stateFault _ => 5

/-- The record a fault carries (R200, D3). -/
def faultRecord : Fault → FaultRecord
  | .unknownOpcode r => r
  | .stackOverflow r => r
  | .stackUnderflow r => r
  | .addressOutOfRange r => r
  | .stateFault r => r

/-- `fault_info` on its 16-bit port (R38); an `info` that does not fit shows a free value (assumption log 2). -/
def faultInfoPort (r : FaultRecord) : Word :=
  if r.info < 2 ^ 16 then BitVec.ofNat 16 r.info else Config.faultInfoTooWide r.info

/-- The fault ports.  R38 calls `fault_kind` and `fault_pc` valid when `result` is 2, and says nothing so of
`fault_opcode` and `fault_info`.  DESIGN CHOICE, safe: the model shows all four at a FAULT only (assumption log 17). -/
structure FaultPorts where
  kind : BitVec 3
  pc : Word
  opcode : Word
  info : Word
  deriving DecidableEq, Repr

/-- The ports at `step_done` (R38).  The `fault` ports are absent on a step that does not fault: for kind and pc R38
says so; for opcode and info it is a DESIGN CHOICE, safe (assumption log 17). -/
structure StepPorts where
  result : BitVec 2
  fault : Option FaultPorts
  draw : Bool
  soundOn : Bool
  deriving DecidableEq, Repr

/-- The `result` code of a step that did not fault: 0 COMPLETED, 1 BLOCKED (R38).  Before the first step there is no
`step_done`, and so no code. -/
def resultCode : StepResult → Option (BitVec 2)
  | .idle => none
  | .completed _ => some 0
  | .blocked => some 1

/-- What the ports show after a step from `s` that answered `o`.  A FAULT commits nothing, so `sound_on` is read from
`s` and the draw flag is 0 (R201).  A step that does not fault has no fault ports, opcode and info among them (DESIGN
CHOICE, safe, assumption log 17).  A refusal, which no step answers, shows nothing. -/
def stepPorts (s : State) : Result → Option StepPorts
  | .next t =>
    (resultCode t.result).map fun code =>
      { result := code, fault := none, draw := drawPort t, soundOn := soundOn t }
  | .fault f =>
    some { result := 2, draw := false, soundOn := soundOn s,
           fault := some { kind := faultKind f, pc := (faultRecord f).pc, opcode := (faultRecord f).opcode,
                           info := faultInfoPort (faultRecord f) } }
  | .refused _ => none

/-- The debug snapshot: PC, SP, I, both timers, all 16 registers and the stack (R37). -/
structure Snapshot where
  pc : Word
  sp : Fin 17
  i : Word
  dt : Byte
  st : Byte
  v : Vector Byte 16
  stack : Vector Word 16
  deriving DecidableEq, Repr

/-- Reading the snapshot changes nothing (R37). -/
def snapshot (s : State) : Snapshot :=
  { pc := s.pc, sp := s.sp, i := s.i, dt := s.dt, st := s.st, v := s.v, stack := s.stack }

end Sys2Proof.Machine
end

