-- ==== Sys2Proof/Machine/HostPort.lean ====
section
/-! DEFINITION. What the host does between steps (spec/10_state.md R33, spec/60_exceptions.md R204, R223,
spec/70_reset_and_hazards.md R231 to R233): the accessor port, construction with a parameter and a font, loading a ROM. -/

namespace Sys2Proof.Machine

/-- What the host gets back from an interaction. -/
inductive HostReply (α : Type) where
  /-- The interaction was made. -/
  | done (value : α)
  /-- An access outside its domain; nothing changed (R33, R204). -/
  | stateFault
  /-- A byte image that does not fit memory, "a loader-level error, not an engine concern" (R233). -/
  | loaderError
  deriving DecidableEq, Repr

/-- The set accessors (R33); the framebuffer has none.  Values are unbounded, so that each is checked. -/
inductive HostWrite where
  | v (index value : Nat)
  | i (value : Nat)
  | pc (value : Nat)
  | stack (index value : Nat)
  | sp (value : Nat)
  | dt (value : Nat)
  | st (value : Nat)
  | mem (addr value : Nat)
  | key (index : Nat) (pressed : Bool)
  deriving DecidableEq, Repr

/-- Whether a write is inside its domain (R33).  DEDUCED, safe (assumption log 7): R33 lists no index domain for V and
the stack, taken as 0 to 15, and no domain for the VALUE of a memory byte write, taken as 0 to 255. -/
def HostWrite.inDomain : HostWrite → Bool
  | .v index value => decide (index ≤ 15) && decide (value ≤ 255)
  | .i value => decide (value ≤ 0xFFFF)
  | .pc value => decide (value ≤ 0xFFFF)
  | .stack index value => decide (index ≤ 15) && decide (value ≤ 0xFFFF)
  | .sp value => decide (value ≤ 16)
  | .dt value => decide (value ≤ 255)
  | .st value => decide (value ≤ 255)
  | .mem addr value => decide (addr ≤ 4095) && decide (value ≤ 255)
  | .key index _ => decide (index ≤ 15)

/-- The effect of an access that is inside its domain. -/
def HostWrite.apply (s : State) : HostWrite → State
  | .v index value => { s with v := s.v.setIfInBounds index (BitVec.ofNat 8 value) }
  | .i value => { s with i := BitVec.ofNat 16 value }
  | .pc value => { s with pc := BitVec.ofNat 16 value }
  | .stack index value => { s with stack := s.stack.setIfInBounds index (BitVec.ofNat 16 value) }
  | .sp value => { s with sp := Fin.ofNat 17 value }
  | .dt value => { s with dt := BitVec.ofNat 8 value }
  | .st value => { s with st := BitVec.ofNat 8 value }
  | .mem addr value => { s with mem := memWrite s.mem addr (BitVec.ofNat 8 value) }
  | .key index pressed => { s with key := s.key.setIfInBounds index pressed }

/-- An accessor write: StateFault, with nothing changed, outside its domain (R33, R204). -/
def hostWrite (w : HostWrite) (s : State) : HostReply State :=
  if w.inDomain then .done (w.apply s) else .stateFault

/-- The get accessors (R33), with the framebuffer, which the host reads (R31). -/
inductive HostRead where
  | v (index : Nat)
  | i
  | pc
  | stack (index : Nat)
  | sp
  | dt
  | st
  | mem (addr : Nat)
  | key (index : Nat)
  | fb (cell : Nat)
  deriving DecidableEq, Repr

/-- Whether the accessor's index is inside its domain (R33). -/
def HostRead.inDomain : HostRead → Bool
  | .v index => decide (index ≤ 15)
  | .stack index => decide (index ≤ 15)
  | .mem addr => decide (addr ≤ 4095)
  | .key index => decide (index ≤ 15)
  | .fb cell => decide (cell ≤ 2047)
  | .i => true
  | .pc => true
  | .sp => true
  | .dt => true
  | .st => true

/-- The value of an accessor that is inside its domain; a flag or a cell reads as 1 or 0. -/
def HostRead.value (s : State) : HostRead → Nat
  | .v index => (s.v.getD index 0).toNat
  | .i => s.i.toNat
  | .pc => s.pc.toNat
  | .stack index => (s.stack.getD index 0).toNat
  | .sp => s.sp.val
  | .dt => s.dt.toNat
  | .st => s.st.toNat
  | .mem addr => (memRead s.mem addr).toNat
  | .key index => (s.key.getD index false).toNat
  | .fb cell => (fbCell s (Fin.ofNat 2048 cell)).toNat

/-- An accessor read; it changes nothing.  DEDUCED, safe (assumption log 7): outside its domain it is a StateFault
too. -/
def hostRead (r : HostRead) (s : State) : HostReply Nat :=
  if r.inDomain then .done (r.value s) else .stateFault

/-- Copies a byte image into memory from `base`; an image that passes 0xFFF is a loader error.  DESIGN CHOICE, safe
(assumption log 14). -/
def loadImage (base : Nat) (image : List Byte) (s : State) : HostReply State :=
  if inRange base image.length then .done (storeBytes base image s) else .loaderError

/-- Loading a ROM: its bytes "verbatim into memory starting at offset 0x200", at most 3584 of them (R233). -/
def loadRom (rom : List Byte) (s : State) : HostReply State :=
  loadImage Config.programStart.toNat rom s

/-- Construction with the open parameters of R6: `FX1E_OVERFLOW` and, placed from 0x000 upward, `FONT_IMAGE` (R231). -/
def construct (overflow : Fx1eOverflow) (font : Option (List Byte)) : HostReply State :=
  loadImage 0 (font.getD []) { State.reset with fx1eOverflow := overflow }

end Sys2Proof.Machine
end

