-- ==== Sys2Proof/Safety.lean ====
section
/-! DEFINITION. The terms the claims use: the invariant of the core, the space of unknown opcodes as R80 lists it, what a
sprite sets, which registers an instruction writes, and how far its step advances PC.  The runs, their ends and the
observation of R242 stand in Machine/Run.lean. -/

namespace Sys2Proof

/-- The unknown space, as spec/30_encoding.md R80 lists it, on the opcode as a number. -/
def UnknownSpace (op : Word) : Prop :=
  op.toNat ≤ 0x00DF ∨ (0x00E1 ≤ op.toNat ∧ op.toNat ≤ 0x00ED) ∨ (0x00EF ≤ op.toNat ∧ op.toNat ≤ 0x0FFF) ∨
  (op.toNat / 0x1000 = 0x5 ∧ op.toNat % 0x10 ≠ 0) ∨
  (op.toNat / 0x1000 = 0x8 ∧ op.toNat % 0x10 ∈ [0x8, 0x9, 0xA, 0xB, 0xC, 0xD, 0xF]) ∨
  (op.toNat / 0x1000 = 0x9 ∧ op.toNat % 0x10 ≠ 0) ∨
  (op.toNat / 0x1000 = 0xE ∧ op.toNat % 0x100 ∉ [0x9E, 0xA1]) ∨
  (op.toNat / 0x1000 = 0xF ∧ op.toNat % 0x100 ∉ [0x07, 0x0A, 0x15, 0x18, 0x1E, 0x29, 0x33, 0x55, 0x65])

/-- The words with `op AND mask = pattern`, and no others, decode to the instruction their fields give (R78). -/
def Encoded (mask pattern : Word) (fields : Word → Instr) : Prop :=
  ∀ op : Word, decode op = some (fields op) ↔ op &&& mask = pattern

namespace Machine

/-- The invariant of the core between steps, when the host writes no I, PC or stack entry out of the program's range:
memory is in its canonical form, I is an address (R24), every return address is one 2nnn can push (R111, with R86's
bound of A + 2), and PC is at most 4 past the last address a fetch can have (R86, R87). -/
def Inv (s : State) : Prop :=
  Memory.wf s.mem ∧ s.i.toNat ≤ 0xFFF ∧ (∀ k : Fin 16, s.stack[k].toNat ≤ 0x1000) ∧ s.pc.toNat ≤ 0x1002

/-- The sprite of Dxyn has a set bit that lands on column `cx` and row `cy`: bit 7 − col of the byte at I + row lands at
`(Vx + col) mod 64`, `(Vy + row) mod 32` (R154 to R156). -/
def SpriteSets (s : State) (x y : Reg) (n : Nibble) (cx : Fin 64) (cy : Fin 32) : Prop :=
  ∃ row col : Nat, row < n.toNat ∧ col < 8 ∧
    (memRead s.mem (s.i.toNat + row)).getLsbD (7 - col) = true ∧
    ((readV s x).toNat + col) % 64 = cx.val ∧ ((readV s y).toNat + row) % 32 = cy.val

/-- The step from `s` to `t` completed with PC + 2, the timers' decay and no draw flag, and changed nothing else but the
registers in `dest`. -/
def AdvancedWriting (dest : Reg → Prop) (s t : State) : Prop :=
  (∀ r, ¬ dest r → readV t r = readV s r) ∧ t = commit false (s.pc + 2) { s with v := t.v }

/-- The general registers an instruction may write (spec/10_state.md R21, with VF under both values of the parameter
for Fx1E, R184). -/
def writesRegister (i : Instr) (r : Reg) : Prop :=
  match i with
  | .cls | .ret | .jp _ | .call _ | .seImm _ _ | .sneImm _ _ | .seReg _ _ | .sneReg _ _ | .ldI _ | .jpV0 _ => False
  | .skp _ | .sknp _ | .ldDtVx _ | .ldStVx _ | .ldFVx _ | .ldBVx _ | .ldIVx _ => False
  | .ldImm x _ | .addImm x _ | .ldReg x _ | .or x _ | .and x _ | .xor x _ | .rnd x _ | .ldVxDt x | .ldVxK x => r = x
  | .addReg x _ | .sub x _ | .shr x _ | .subn x _ | .shl x _ => r = x ∨ r = 0xF
  | .drw _ _ _ | .addIVx _ => r = 0xF
  | .ldVxI x => r.val ≤ x.val

/-- The delay timer after the instruction's own writes and before the decay (R182, R215). -/
def delayBeforeDecay (i : Instr) (s : State) : Byte :=
  match i with
  | .ldDtVx x => readV s x
  | _ => s.dt

/-- The sound timer after the instruction's own writes and before the decay (R183, R215). -/
def soundBeforeDecay (i : Instr) (s : State) : Byte :=
  match i with
  | .ldStVx x => readV s x
  | _ => s.st

/-- By how many bytes the step of an instruction advances PC: 2, or 4 for a taken skip (R86, R87).  None where the
instruction sets PC itself, where its own check fails (R85), and where it blocks (R181). -/
def pcAdvance (i : Instr) (s : State) : Option Nat :=
  match i with
  | .ret | .jp _ | .call _ | .jpV0 _ => none
  | .seImm x kk => some (if readV s x = kk then 4 else 2)
  | .sneImm x kk => some (if readV s x = kk then 2 else 4)
  | .seReg x y => some (if readV s x = readV s y then 4 else 2)
  | .sneReg x y => some (if readV s x = readV s y then 2 else 4)
  | .skp x => s.key[(readV s x).toNat]?.map fun pressed => if pressed then 4 else 2
  | .sknp x => s.key[(readV s x).toNat]?.map fun pressed => if pressed then 2 else 4
  | .drw _ _ n => if n.toNat = 0 ∨ s.i.toNat + n.toNat ≤ 0x1000 then some 2 else none
  | .ldVxK _ => if ∃ k : Fin 16, s.key[k] = true then some 2 else none
  | .addIVx x => if s.fx1eOverflow = .wrap ∨ s.i.toNat + (readV s x).toNat ≤ 0xFFF then some 2 else none
  | .ldBVx _ => if s.i.toNat + 2 ≤ 0xFFF then some 2 else none
  | .ldIVx x | .ldVxI x => if s.i.toNat + x.val ≤ 0xFFF then some 2 else none
  | .cls | .ldImm _ _ | .addImm _ _ | .ldReg _ _ | .or _ _ | .and _ _ | .xor _ _ | .addReg _ _ | .sub _ _ => some 2
  | .shr _ _ | .subn _ _ | .shl _ _ | .ldI _ | .rnd _ _ | .ldVxDt _ | .ldDtVx _ | .ldStVx _ | .ldFVx _ => some 2

end Machine

end Sys2Proof
end

