-- ==== Sys2Proof/Certificates/Slice0/Obligations.lean ====
section
/-! DEFINITION. The statements for the provers, from the numbered rules of spec/.  A clause that rests on one of the
spec's own decisions (spec/92_eei_decisions.md) or on an assumption-log entry says so, and its statement is derived. -/

open Sys2Proof Sys2Proof.Machine

/-- Decoding the encoding of any instruction gives the instruction back (R72, R73, R78, R88). -/
def Obligations.DecodeInvertsEncode : Prop :=
  ∀ i : Instr, decode (encode i) = some i

/-- Encoding a decoded opcode gives the opcode back, the ignored y field of the shifts included (R71, R81, R88). -/
def Obligations.EncodeInvertsDecode : Prop :=
  ∀ (op : Word) (i : Instr), decode op = some i → encode i = op

/-- The decoder accepts exactly the words of the 34 rows of R78, each by its own row, and no two rows overlap (R77, R78, R81). -/
def Obligations.OpcodeTableIsComplete : Prop :=
  opcodeTable.length = 34 ∧
  (∀ op : Word, (decode op).isSome = true ↔ ∃ r ∈ opcodeTable, op &&& r.mask = r.pattern) ∧
  (∀ (op : Word) (i : Instr), decode op = some i → op &&& (rowOf i).mask = (rowOf i).pattern) ∧
  opcodeTable.Pairwise fun r q => ∀ op : Word, ¬ (op &&& r.mask = r.pattern ∧ op &&& q.mask = q.pattern)

/-- The step raises UnknownOpcode(op, A) exactly on the unknown space of R80, the words that match no row of R78 (R80). -/
def Obligations.UnknownOpcodesAreExactlyTheListedSpace : Prop :=
  (∀ op : Word, UnknownSpace op ↔ ∀ r ∈ opcodeTable, op &&& r.mask ≠ r.pattern) ∧
  ∀ s : State, s.pc.toNat ≤ 0xFFE →
    (UnknownSpace (opcodeAt s.mem s.pc.toNat) ↔
      ∃ r, step s = .fault (.unknownOpcode r) ∧ r.opcode = opcodeAt s.mem s.pc.toNat ∧ r.pc = s.pc)

/-- Sample words of every class decode to the instructions their patterns spell; six words of the gaps to nothing (0x9001: decision D6) (R71, R77, R79). -/
def Obligations.DecodesTheseWords : Prop :=
  decode 0x00E0 = some .cls ∧ decode 0x1234 = some (.jp 0x234) ∧ decode 0x2210 = some (.call 0x210) ∧
  decode 0x3210 = some (.seImm 2 0x10) ∧ decode 0x4210 = some (.sneImm 2 0x10) ∧ decode 0x5120 = some (.seReg 1 2) ∧
  decode 0x6A7B = some (.ldImm 0xA 0x7B) ∧ decode 0x70FF = some (.addImm 0 0xFF) ∧ decode 0x8456 = some (.shr 4 5) ∧ decode 0x9120 = some (.sneReg 1 2) ∧ decode 0xA300 = some (.ldI 0x300) ∧
  decode 0xB3FE = some (.jpV0 0x3FE) ∧ decode 0xC30F = some (.rnd 3 0x0F) ∧ decode 0xD125 = some (.drw 1 2 5) ∧
  decode 0xE59E = some (.skp 5) ∧ decode 0xF265 = some (.ldVxI 2) ∧
  decode 0x0123 = none ∧ decode 0x5001 = none ∧ decode 0x8008 = none ∧ decode 0x9001 = none ∧
  decode 0xE09F = none ∧ decode 0xF166 = none

/-- A step runs the instruction that the two bytes at PC decode to, high byte first (R50, R74). -/
def Obligations.StepRunsTheDecodedInstruction : Prop :=
  ∀ (s : State) (i : Instr), s.pc.toNat + 1 ≤ 0xFFF →
    decode (memRead s.mem s.pc.toNat ++ memRead s.mem (s.pc.toNat + 1)) = some i → step s = exec i s

/-- A PC above 0xFFE faults at the fetch, not in the step that produced it (spec decisions D3, D11) (R75, R86, R87). -/
def Obligations.FetchPastMemoryFaults : Prop :=
  (∀ s : State, 0xFFE < s.pc.toNat →
    step s = .fault (.addressOutOfRange { pc := s.pc, opcode := 0, info := max s.pc.toNat 0x1000 })) ∧
  ∀ (s : State) (i : Instr) (d : Nat), s.pc.toNat ≤ 0xFFE → decode (opcodeAt s.mem s.pc.toNat) = some i →
    pcAdvance i s = some d → ∃ t, step s = .next t ∧ t.pc.toNat = s.pc.toNat + d ∧
      (0xFFE < s.pc.toNat + d →
        step t = .fault (.addressOutOfRange { pc := t.pc, opcode := 0, info := max t.pc.toNat 0x1000 }))

/-- Construction leaves every state element and output zero except PC = 0x200 (R230). -/
def Obligations.ResetZeroesAllButThePc : Prop :=
  (∀ x : Reg, readV State.reset x = 0) ∧ State.reset.i = 0 ∧ State.reset.pc = 0x200 ∧ State.reset.sp.val = 0 ∧
  (∀ k : Fin 16, State.reset.stack[k] = 0) ∧ State.reset.dt = 0 ∧ State.reset.st = 0 ∧
  (∀ a, memRead State.reset.mem a = 0) ∧ (∀ cx cy, pixel State.reset.fb cx cy = false) ∧
  (∀ k : Fin 16, State.reset.key[k] = false) ∧ drawPort State.reset = false ∧ soundOn State.reset = false

/-- Construction with a font image puts its bytes at 0x000 upward and is reset otherwise (spec decision D18) (R231, R230). -/
def Obligations.ConstructionPlacesTheFont : Prop :=
  ∀ (overflow : Fx1eOverflow) (font : List Byte), font.length ≤ 4096 →
    ∃ t, construct overflow (some font) = .done t ∧
      (∀ (k : Nat) (h : k < font.length), memRead t.mem k = font[k]) ∧
      (∀ a, font.length ≤ a → memRead t.mem a = 0) ∧
      t = { State.reset with mem := t.mem, fx1eOverflow := overflow }

/-- A step before any ROM is loaded raises UnknownOpcode(0x0000, 0x200), with the info 0 of R200 (spec decision D3) (R234, R80, R200). -/
def Obligations.StepFromResetFaultsUnknown : Prop :=
  step State.reset = .fault (.unknownOpcode { pc := 0x200, opcode := 0x0000, info := 0 })

/-- Every step completes, blocks in Fx0A with nothing committed, or faults; it never refuses (R34, R39, R84, R181). -/
def Obligations.StepHasThreeOutcomes : Prop :=
  ∀ s : State,
    (∃ t draw, step s = .next t ∧ t.result = .completed draw) ∨
    (step s = .next { s with result := .blocked } ∧
      (∃ x, decode (opcodeAt s.mem s.pc.toNat) = some (.ldVxK x)) ∧ ∀ k : Fin 16, s.key[k] = false) ∨
    ∃ f, step s = .fault f

/-- Every fault of a step carries its PC, the fetched opcode, and a code from 1 to 5 (spec decisions D2, D3) (R200, R75, R88). -/
def Obligations.FaultsRecordPcAndOpcode : Prop :=
  ∀ (s : State) (f : Fault), step s = .fault f →
    (faultRecord f).pc = s.pc ∧
    (faultRecord f).opcode = (if s.pc.toNat ≤ 0xFFE then opcodeAt s.mem s.pc.toNat else 0) ∧
    1 ≤ (faultKind f).toNat ∧ (faultKind f).toNat ≤ 5

/-- Every step keeps memory canonical, I an address, return addresses and PC within reach of memory (R24, R25, R86, R111, R56). -/
def Obligations.StepKeepsInvariant : Prop :=
  ∀ s t : State, Inv s → step s = .next t → Inv t

/-- The state after construction meets the invariant (R230). -/
def Obligations.ResetMeetsInvariant : Prop :=
  Inv State.reset

/-- No instruction but 00E0 and Dxyn changes a framebuffer cell (R31). -/
def Obligations.OnlyClsAndDrwChangeTheFramebuffer : Prop :=
  ∀ (i : Instr) (s t : State), exec i s = .next t → i ≠ .cls → (∀ x y n, i ≠ .drw x y n) →
    ∀ cx cy, pixel t.fb cx cy = pixel s.fb cx cy

/-- No step changes a keypad flag (R32), nor the field that holds FX1E_OVERFLOW (the model's choice, assumption log 4) (R32). -/
def Obligations.NoStepChangesKeypadOrParameter : Prop :=
  ∀ s t : State, step s = .next t → t.key = s.key ∧ t.fx1eOverflow = s.fx1eOverflow

/-- Only 2nnn writes a stack entry, and only 2nnn and 00EE change SP (00EE clears nothing, decision D5) (R26, R27). -/
def Obligations.OnlyCallWritesTheStack : Prop :=
  ∀ (i : Instr) (s t : State), exec i s = .next t → (∀ nnn, i ≠ .call nnn) →
    t.stack = s.stack ∧ (i ≠ .ret → t.sp = s.sp)

/-- Only Annn, Fx1E and Fx29 change I; the block transfers leave it (spec decision D16) (R24, R186, R187, R188). -/
def Obligations.OnlyIndexInstructionsWriteI : Prop :=
  ∀ (i : Instr) (s t : State), exec i s = .next t → (∀ nnn, i ≠ .ldI nnn) → (∀ x, i ≠ .addIVx x) →
    (∀ x, i ≠ .ldFVx x) → t.i = s.i

/-- No instruction but Fx33 and Fx55 changes a byte of memory (R53, R54). -/
def Obligations.OnlyStoresChangeMemory : Prop :=
  ∀ (i : Instr) (s t : State), exec i s = .next t → (∀ x, i ≠ .ldBVx x) → (∀ x, i ≠ .ldIVx x) →
    ∀ a, memRead t.mem a = memRead s.mem a

/-- Each completed Cxkk takes exactly one random byte and no other instruction takes one (R153). -/
def Obligations.OnlyRndDrawsRandomBytes : Prop :=
  ∀ (i : Instr) (s t : State), exec i s = .next t →
    (∀ x kk, i = .rnd x kk → t.draws = s.draws + 1) ∧ ((∀ x kk, i ≠ .rnd x kk) → t.draws = s.draws)

/-- Every instruction leaves every general register but its destinations as it was (R20, R21, R184). -/
def Obligations.OnlyDestinationRegistersChange : Prop :=
  ∀ (i : Instr) (s t : State) (r : Reg), exec i s = .next t → ¬ writesRegister i r → readV t r = readV s r

/-- Each timer decays by one, not below 0, on every completed instruction after its own writes, and not on BLOCKED (R215). -/
def Obligations.TimersDecayOnCompletion : Prop :=
  ∀ (i : Instr) (s t : State), exec i s = .next t →
    (∀ draw, t.result = .completed draw →
      t.dt.toNat = (delayBeforeDecay i s).toNat - 1 ∧ t.st.toNat = (soundBeforeDecay i s).toNat - 1) ∧
    (t.result = .blocked → t.dt = s.dt ∧ t.st = s.st)

/-- The draw flag is 1 exactly after a completed 00E0 or Dxyn; at a FAULT it is 0 and result is 2 (decisions D1, D3, D15) (R35, R38). -/
def Obligations.DrawFlagMarksClsAndDrw : Prop :=
  (∀ (i : Instr) (s t : State), exec i s = .next t →
    (drawPort t = true ↔ i = .cls ∨ ∃ x y n, i = .drw x y n)) ∧
  ∀ (s : State) (f : Fault) (p : StepPorts), stepPorts s (.fault f) = some p → p.draw = false ∧ p.result = 2

/-- 00E0 clears every cell, sets the draw flag and changes nothing else but PC and the timers' decay (R100). -/
def Obligations.ClsClearsTheFramebuffer : Prop :=
  Encoded 0xFFFF 0x00E0 (fun _ => .cls) ∧
  ∀ s : State, ∃ t, exec .cls s = .next t ∧ (∀ cx cy, pixel t.fb cx cy = false) ∧ drawPort t = true ∧
    t = commit true (s.pc + 2) { s with fb := t.fb }

/-- 00EE with SP above 0 decrements SP and sets PC to the entry there, which keeps its value (decisions D4, D5) (R101). -/
def Obligations.RetPopsTheReturnAddress : Prop :=
  ∀ s : State, 0 < s.sp.val → ∃ t, exec .ret s = .next t ∧ t.sp.val + 1 = s.sp.val ∧
    s.stack[t.sp.val]? = some t.pc ∧ t = commit false t.pc { s with sp := t.sp }

/-- 00EE with SP = 0 raises StackUnderflow (R101, R200). -/
def Obligations.RetOnEmptyStackFaults : Prop :=
  ∀ s : State, s.sp.val = 0 →
    exec .ret s = .fault (.stackUnderflow { pc := s.pc, opcode := 0x00EE, info := 0 })

/-- 1nnn sets PC to nnn and changes nothing else but the timers' decay (R110). -/
def Obligations.JpJumps : Prop :=
  Encoded 0xF000 0x1000 (fun op => .jp (fieldNnn op)) ∧
  ∀ (nnn : Addr) (s : State), ∃ t, exec (.jp nnn) s = .next t ∧ t.pc.toNat = nnn.toNat ∧ t = commit false t.pc s

/-- 2nnn with SP below 16 pushes A + 2, increments SP and jumps (spec decision D4) (R111). -/
def Obligations.CallPushesTheReturnAddress : Prop :=
  ∀ (nnn : Addr) (s : State), s.sp.val < 16 → ∃ t, exec (.call nnn) s = .next t ∧
    t.stack[s.sp.val]? = some (s.pc + 2) ∧ (∀ k : Fin 16, k.val ≠ s.sp.val → t.stack[k] = s.stack[k]) ∧
    t.sp.val = s.sp.val + 1 ∧ t.pc.toNat = nnn.toNat ∧
    t = commit false t.pc { s with stack := t.stack, sp := t.sp }

/-- 2nnn with SP = 16 raises StackOverflow (R111, R200). -/
def Obligations.CallOnFullStackFaults : Prop :=
  ∀ (nnn : Addr) (s : State), s.sp.val = 16 →
    exec (.call nnn) s = .fault (.stackOverflow { pc := s.pc, opcode := 0x2000 ||| zextAddr nnn, info := 16 })

/-- A call followed at once by a return continues at A + 2 with the stack pointer restored (decision D4) (R111, R101). -/
def Obligations.CallThenRetContinuesAfterTheCall : Prop :=
  ∀ (nnn : Addr) (s : State), s.sp.val < 16 → ∃ t u, exec (.call nnn) s = .next t ∧ exec .ret t = .next u ∧
    u.pc = s.pc + 2 ∧ u.sp = s.sp ∧ u.v = s.v ∧ u.i = s.i ∧ u.mem = s.mem ∧ u.fb = s.fb

/-- 3xkk skips when Vx equals kk and 4xkk when it does not: A + 4 or A + 2, nothing else (R112, R113). -/
def Obligations.ImmediateSkips : Prop :=
  Encoded 0xF000 0x3000 (fun op => .seImm (fieldX op) (fieldKk op)) ∧
  Encoded 0xF000 0x4000 (fun op => .sneImm (fieldX op) (fieldKk op)) ∧
  ∀ (x : Reg) (kk : Byte) (s : State),
    exec (.seImm x kk) s = .next (commit false (if readV s x = kk then s.pc + 4 else s.pc + 2) s) ∧
    exec (.sneImm x kk) s = .next (commit false (if readV s x = kk then s.pc + 2 else s.pc + 4) s)

/-- 5xy0 skips when Vx equals Vy; 5xyN with N not 0 is unknown (R114). -/
def Obligations.EqualRegistersSkip : Prop :=
  Encoded 0xF00F 0x5000 (fun op => .seReg (fieldX op) (fieldY op)) ∧
  (∀ op : Word, op &&& 0xF000 = 0x5000 → op &&& 0x000F ≠ 0 → decode op = none) ∧
  ∀ (x y : Reg) (s : State),
    exec (.seReg x y) s = .next (commit false (if readV s x = readV s y then s.pc + 4 else s.pc + 2) s)

/-- 9xy0 skips when Vx differs from Vy; 9xyN with N not 0 is unknown (spec decision D6) (R150). -/
def Obligations.UnequalRegistersSkip : Prop :=
  Encoded 0xF00F 0x9000 (fun op => .sneReg (fieldX op) (fieldY op)) ∧
  (∀ op : Word, op &&& 0xF000 = 0x9000 → op &&& 0x000F ≠ 0 → decode op = none) ∧
  ∀ (x y : Reg) (s : State),
    exec (.sneReg x y) s = .next (commit false (if readV s x = readV s y then s.pc + 2 else s.pc + 4) s)

/-- 6xkk loads kk into Vx; 7xkk adds it modulo 256; neither writes another register or a flag (R115, R116). -/
def Obligations.ImmediateLoadAndAdd : Prop :=
  Encoded 0xF000 0x6000 (fun op => .ldImm (fieldX op) (fieldKk op)) ∧
  Encoded 0xF000 0x7000 (fun op => .addImm (fieldX op) (fieldKk op)) ∧
  ∀ (x : Reg) (kk : Byte) (s : State),
    (∃ t, exec (.ldImm x kk) s = .next t ∧ readV t x = kk ∧ AdvancedWriting (· = x) s t) ∧
    (∃ t, exec (.addImm x kk) s = .next t ∧ (readV t x).toNat = ((readV s x).toNat + kk.toNat) % 256 ∧
      AdvancedWriting (· = x) s t)

/-- 8xy0 to 8xy3 give Vx the copy, OR, AND or XOR and write no flag (R130, R131, R132, R133). -/
def Obligations.CopyAndLogicWriteOnlyVx : Prop :=
  Encoded 0xF00F 0x8000 (fun op => .ldReg (fieldX op) (fieldY op)) ∧
  Encoded 0xF00F 0x8001 (fun op => .or (fieldX op) (fieldY op)) ∧
  Encoded 0xF00F 0x8002 (fun op => .and (fieldX op) (fieldY op)) ∧
  Encoded 0xF00F 0x8003 (fun op => .xor (fieldX op) (fieldY op)) ∧
  ∀ (x y : Reg) (s : State),
    (∃ t, exec (.ldReg x y) s = .next t ∧ readV t x = readV s y ∧ AdvancedWriting (· = x) s t) ∧
    (∃ t, exec (.or x y) s = .next t ∧ AdvancedWriting (· = x) s t ∧
      ∀ k, (readV t x).getLsbD k = ((readV s x).getLsbD k || (readV s y).getLsbD k)) ∧
    (∃ t, exec (.and x y) s = .next t ∧ AdvancedWriting (· = x) s t ∧
      ∀ k, (readV t x).getLsbD k = ((readV s x).getLsbD k && (readV s y).getLsbD k)) ∧
    (∃ t, exec (.xor x y) s = .next t ∧ AdvancedWriting (· = x) s t ∧
      ∀ k, (readV t x).getLsbD k = ((readV s x).getLsbD k ^^ (readV s y).getLsbD k))

/-- 8xy4 adds modulo 256 with VF = carry; for x = 0xF the sum is what stays (spec decision D8) (R134, R139, R11). -/
def Obligations.AddRegistersSetsCarry : Prop :=
  ∀ (x y : Reg) (s : State), ∃ t, exec (.addReg x y) s = .next t ∧
    (readV t x).toNat = ((readV s x).toNat + (readV s y).toNat) % 256 ∧
    (x ≠ 0xF → readV t 0xF = if 255 < (readV s x).toNat + (readV s y).toNat then 1 else 0) ∧
    AdvancedWriting (fun r => r = x ∨ r = 0xF) s t

/-- 8xy5 and 8xy7 subtract modulo 256 with VF = strictly greater (x = 0xF: spec decision D8) (R135, R137, R139, R11). -/
def Obligations.SubtractionsSetGreater : Prop :=
  ∀ (x y : Reg) (s : State),
    (∃ t, exec (.sub x y) s = .next t ∧
      (readV t x).toNat = (256 + (readV s x).toNat - (readV s y).toNat) % 256 ∧
      (x ≠ 0xF → readV t 0xF = if (readV s y).toNat < (readV s x).toNat then 1 else 0) ∧
      AdvancedWriting (fun r => r = x ∨ r = 0xF) s t) ∧
    (∃ t, exec (.subn x y) s = .next t ∧
      (readV t x).toNat = (256 + (readV s y).toNat - (readV s x).toNat) % 256 ∧
      (x ≠ 0xF → readV t 0xF = if (readV s x).toNat < (readV s y).toNat then 1 else 0) ∧
      AdvancedWriting (fun r => r = x ∨ r = 0xF) s t)

/-- 8xy6 and 8xyE shift Vx by one, whatever y is, with VF = the bit shifted out (x = 0xF: decision D8) (R136, R138, R139, R11). -/
def Obligations.ShiftsSetTheBitShiftedOut : Prop :=
  ∀ (x y : Reg) (s : State),
    (∃ t, exec (.shr x y) s = .next t ∧ (readV t x).toNat = (readV s x).toNat / 2 ∧
      (x ≠ 0xF → (readV t 0xF).toNat = (readV s x).toNat % 2) ∧
      AdvancedWriting (fun r => r = x ∨ r = 0xF) s t) ∧
    (∃ t, exec (.shl x y) s = .next t ∧ (readV t x).toNat = (readV s x).toNat * 2 % 256 ∧
      (x ≠ 0xF → (readV t 0xF).toNat = (readV s x).toNat / 128) ∧
      AdvancedWriting (fun r => r = x ∨ r = 0xF) s t)

/-- With x = 0xF the flag-writing ALU instructions leave the result in VF, not the flag (decision D8) (R140, R22, R11). -/
def Obligations.VfAsDestinationKeepsTheResult : Prop :=
  ∀ (y : Reg) (s : State), y ≠ 0xF →
    (∃ t, exec (.addReg 0xF y) s = .next t ∧
      (readV t 0xF).toNat = ((readV s 0xF).toNat + (readV s y).toNat) % 256) ∧
    (∃ t, exec (.sub 0xF y) s = .next t ∧
      (readV t 0xF).toNat = (256 + (readV s 0xF).toNat - (readV s y).toNat) % 256) ∧
    (∃ t, exec (.shr 0xF y) s = .next t ∧ (readV t 0xF).toNat = (readV s 0xF).toNat / 2) ∧
    (∃ t, exec (.subn 0xF y) s = .next t ∧
      (readV t 0xF).toNat = (256 + (readV s y).toNat - (readV s 0xF).toNat) % 256) ∧
    (∃ t, exec (.shl 0xF y) s = .next t ∧ (readV t 0xF).toNat = (readV s 0xF).toNat * 2 % 256)

/-- Annn sets I to nnn and changes nothing else but PC and the timers' decay (R151). -/
def Obligations.LoadIndexSetsI : Prop :=
  Encoded 0xF000 0xA000 (fun op => .ldI (fieldNnn op)) ∧
  ∀ (nnn : Addr) (s : State), ∃ t, exec (.ldI nnn) s = .next t ∧ t.i.toNat = nnn.toNat ∧ t.i.toNat ≤ 0xFFF ∧
    t = commit false (s.pc + 2) { s with i := t.i }

/-- Bnnn jumps to nnn + V0 when that is an address and otherwise raises AddressOutOfRange (decision D10) (R152). -/
def Obligations.IndexedJumpOrFault : Prop :=
  (∀ (nnn : Addr) (s : State), nnn.toNat + (readV s 0).toNat ≤ 0xFFF →
    ∃ t, exec (.jpV0 nnn) s = .next t ∧ t.pc.toNat = nnn.toNat + (readV s 0).toNat ∧ t = commit false t.pc s) ∧
  ∀ (nnn : Addr) (s : State), 0xFFF < nnn.toNat + (readV s 0).toNat →
    exec (.jpV0 nnn) s = .fault (.addressOutOfRange
      { pc := s.pc, opcode := 0xB000 ||| zextAddr nnn, info := nnn.toNat + (readV s 0).toNat })

/-- Cxkk gives Vx one random draw masked by kk, whatever the draw is (log entry 1) (R153). -/
def Obligations.RandomByteIsMasked : Prop :=
  ∀ (x : Reg) (kk : Byte) (s : State), ∃ t, exec (.rnd x kk) s = .next t ∧
    readV t x = Config.randomByte s.draws &&& kk ∧ (∀ k, kk.getLsbD k = false → (readV t x).getLsbD k = false) ∧
    (∀ r, r ≠ x → readV t r = readV s r) ∧
    t = commit false (s.pc + 2) { s with v := t.v, draws := s.draws + 1 }

/-- Dxyn's drawing loop is the pixelwise XOR of the wrapped sprite, with VF its collision (decisions D8, D13, D15) (R154, R155, R156, R157, R158, R159). -/
def Obligations.DrawXorsTheSpriteAndReportsCollision : Prop :=
  ∀ (x y : Reg) (n : Nibble) (s : State), (n.toNat = 0 ∨ s.i.toNat + n.toNat ≤ 0x1000) →
    ∃ t, exec (.drw x y n) s = .next t ∧
      (∀ cx cy, pixel t.fb cx cy = true ↔ ¬ (pixel s.fb cx cy = true ↔ SpriteSets s x y n cx cy)) ∧
      (readV t 0xF = 1 ∨ readV t 0xF = 0) ∧
      (readV t 0xF = 1 ↔ ∃ cx cy, SpriteSets s x y n cx cy ∧ pixel s.fb cx cy = true) ∧
      (∀ r, r ≠ 0xF → readV t r = readV s r) ∧ drawPort t = true ∧
      t = commit true (s.pc + 2) { s with v := t.v, fb := t.fb }

/-- Dxy0 makes no range check, changes no cell, clears VF and sets the draw flag (spec decision D14) (R160). -/
def Obligations.DrawOfNoRowsOnlyClearsVf : Prop :=
  ∀ (x y : Reg) (s : State), ∃ t, exec (.drw x y 0) s = .next t ∧ t.fb = s.fb ∧ readV t 0xF = 0 ∧
    drawPort t = true ∧ (∀ r, r ≠ 0xF → readV t r = readV s r) ∧ t = commit true (s.pc + 2) { s with v := t.v }

/-- The same sprite drawn twice leaves the framebuffer as it was, and the second draw collides where the first set a cell (R157, R154). -/
def Obligations.DrawTwiceRestoresTheFramebuffer : Prop :=
  ∀ (x y : Reg) (n : Nibble) (s : State), x ≠ 0xF → y ≠ 0xF → s.i.toNat + n.toNat ≤ 0x1000 →
    ∃ t u, exec (.drw x y n) s = .next t ∧ exec (.drw x y n) t = .next u ∧ u.fb = s.fb ∧
      (readV u 0xF = 1 ↔ ∃ cx cy, SpriteSets s x y n cx cy ∧ pixel s.fb cx cy = false)

/-- Ex9E skips when key Vx is pressed and ExA1 when it is not, for Vx at most 0x0F (R170, R171, R32). -/
def Obligations.KeySkips : Prop :=
  ∀ (x : Reg) (s : State) (k : Fin 16), (readV s x).toNat = k.val →
    exec (.skp x) s = .next (commit false (if s.key[k] = true then s.pc + 4 else s.pc + 2) s) ∧
    exec (.sknp x) s = .next (commit false (if s.key[k] = true then s.pc + 2 else s.pc + 4) s)

/-- Ex9E and ExA1 with Vx above 0x0F raise StateFault with the index (spec decision D7) (R170, R171, R172). -/
def Obligations.KeyIndexAboveFFaults : Prop :=
  ∀ (x : Reg) (s : State), 0x0F < (readV s x).toNat →
    exec (.skp x) s = .fault (.stateFault { pc := s.pc, opcode := encode (.skp x), info := (readV s x).toNat }) ∧
    exec (.sknp x) s = .fault (.stateFault { pc := s.pc, opcode := encode (.sknp x), info := (readV s x).toNat })

/-- Fx07 gives Vx the delay timer of the start of the step, and the decay follows (R180). -/
def Obligations.DelayTimerIsReadBeforeTheDecay : Prop :=
  Encoded 0xF0FF 0xF007 (fun op => .ldVxDt (fieldX op)) ∧
  ∀ (x : Reg) (s : State), ∃ t, exec (.ldVxDt x) s = .next t ∧ readV t x = s.dt ∧ t.dt.toNat = s.dt.toNat - 1 ∧
    AdvancedWriting (· = x) s t

/-- Fx15 and Fx18 set a timer with their own step's decay; it is then N minus the completed steps, floor 0 (sound_on: D21) (R182, R183, R216, R215, R36). -/
def Obligations.SetTimersCountDown : Prop :=
  (∀ (x : Reg) (s : State), ∃ t, exec (.ldDtVx x) s = .next t ∧ t.dt.toNat = (readV s x).toNat - 1 ∧
    t = commit false (s.pc + 2) { s with dt := readV s x }) ∧
  (∀ (x : Reg) (s : State), ∃ t, exec (.ldStVx x) s = .next t ∧ t.st.toNat = (readV s x).toNat - 1 ∧
    (soundOn t = true ↔ 1 < (readV s x).toNat) ∧ t = commit false (s.pc + 2) { s with st := readV s x }) ∧
  ∀ (x : Reg) (instrs : Nat → Instr) (run : Nat → State) (n : Nat),
    (∀ k, k ≤ n → exec (instrs k) (run k) = .next (run (k + 1)) ∧ ∃ draw, (run (k + 1)).result = .completed draw) →
    (instrs 0 = .ldDtVx x → (∀ k r, instrs (k + 1) ≠ .ldDtVx r) →
      (run (n + 1)).dt.toNat = (readV (run 0) x).toNat - (n + 1)) ∧
    (instrs 0 = .ldStVx x → (∀ k r, instrs (k + 1) ≠ .ldStVx r) →
      (run (n + 1)).st.toNat = (readV (run 0) x).toNat - (n + 1))

/-- Fx0A blocks with nothing committed while no key is pressed, and otherwise gives Vx the highest pressed key (R181). -/
def Obligations.WaitForKeyTakesTheHighestKey : Prop :=
  Encoded 0xF0FF 0xF00A (fun op => .ldVxK (fieldX op)) ∧
  (∀ (x : Reg) (s : State), (∀ k : Fin 16, s.key[k] = false) →
    exec (.ldVxK x) s = .next { s with result := .blocked }) ∧
  ∀ (x : Reg) (s : State) (k : Fin 16), s.key[k] = true → (∀ j : Fin 16, k < j → s.key[j] = false) →
    ∃ t, exec (.ldVxK x) s = .next t ∧ (readV t x).toNat = k.val ∧ AdvancedWriting (· = x) s t

/-- Fx1E under WRAP gives I the sum modulo 4096 and VF the overflow past 0xFFF (spec decision D9) (R184). -/
def Obligations.AddIndexWraps : Prop :=
  ∀ (x : Reg) (s : State), s.fx1eOverflow = .wrap → ∃ t, exec (.addIVx x) s = .next t ∧
    t.i.toNat = (s.i.toNat + (readV s x).toNat) % 4096 ∧
    readV t 0xF = (if 0xFFF < s.i.toNat + (readV s x).toNat then 1 else 0) ∧
    (∀ r, r ≠ 0xF → readV t r = readV s r) ∧ t = commit false (s.pc + 2) { s with v := t.v, i := t.i }

/-- Fx1E under FAULT adds and clears VF inside memory (VF: log 13), and raises AddressOutOfRange past 0xFFF (D3, D9) (R184). -/
def Obligations.AddIndexFaultsUnderTheOtherParameter : Prop :=
  (∀ (x : Reg) (s : State), s.fx1eOverflow = .fault → s.i.toNat + (readV s x).toNat ≤ 0xFFF →
    ∃ t, exec (.addIVx x) s = .next t ∧ t.i.toNat = s.i.toNat + (readV s x).toNat ∧ readV t 0xF = 0 ∧
      (∀ r, r ≠ 0xF → readV t r = readV s r) ∧ t = commit false (s.pc + 2) { s with v := t.v, i := t.i }) ∧
  ∀ (x : Reg) (s : State), s.fx1eOverflow = .fault → 0xFFF < s.i.toNat + (readV s x).toNat →
    exec (.addIVx x) s = .fault (.addressOutOfRange
      { pc := s.pc, opcode := encode (.addIVx x), info := s.i.toNat + (readV s x).toNat })

/-- Fx29 sets I to Vx times 5, with no mask (spec decision D17) (R185). -/
def Obligations.DigitSpriteAddressIsFiveTimesVx : Prop :=
  ∀ (x : Reg) (s : State), ∃ t, exec (.ldFVx x) s = .next t ∧ t.i.toNat = (readV s x).toNat * 5 ∧
    t = commit false (s.pc + 2) { s with i := t.i }

/-- Fx33 stores the hundreds, tens and ones of Vx at I, I + 1, I + 2 and no other byte changes (R186, R54). -/
def Obligations.DecimalDigitsAreStored : Prop :=
  ∀ (x : Reg) (s : State), Memory.wf s.mem → s.i.toNat + 2 ≤ 0xFFF → ∃ t, exec (.ldBVx x) s = .next t ∧
    (memRead t.mem s.i.toNat).toNat = (readV s x).toNat / 100 ∧
    (memRead t.mem (s.i.toNat + 1)).toNat = (readV s x).toNat / 10 % 10 ∧
    (memRead t.mem (s.i.toNat + 2)).toNat = (readV s x).toNat % 10 ∧
    (∀ a, a < s.i.toNat ∨ s.i.toNat + 2 < a → memRead t.mem a = memRead s.mem a) ∧
    t = commit false (s.pc + 2) { s with mem := t.mem }

/-- Fx55 stores V0 to Vx from I upward and no other byte changes; I is unchanged (spec decision D16) (R187, R54). -/
def Obligations.RegistersAreStoredFromI : Prop :=
  ∀ (x : Reg) (s : State), Memory.wf s.mem → s.i.toNat + x.val ≤ 0xFFF → ∃ t, exec (.ldIVx x) s = .next t ∧
    (∀ k : Reg, k ≤ x → memRead t.mem (s.i.toNat + k.val) = readV s k) ∧
    (∀ a, a < s.i.toNat ∨ s.i.toNat + x.val < a → memRead t.mem a = memRead s.mem a) ∧
    t = commit false (s.pc + 2) { s with mem := t.mem }

/-- Fx65 loads V0 to Vx from I upward and leaves the registers above x; I is unchanged (spec decision D16) (R188). -/
def Obligations.RegistersAreLoadedFromI : Prop :=
  ∀ (x : Reg) (s : State), s.i.toNat + x.val ≤ 0xFFF → ∃ t, exec (.ldVxI x) s = .next t ∧
    (∀ k : Reg, k ≤ x → readV t k = memRead s.mem (s.i.toNat + k.val)) ∧ AdvancedWriting (· ≤ x) s t

/-- Dxyn, Fx33, Fx55 and Fx65 whose last address is above 0xFFF raise AddressOutOfRange (info: decision D3) (R56, R154, R186, R187, R188, R189). -/
def Obligations.AccessPastMemoryFaults : Prop :=
  (∀ (x y : Reg) (n : Nibble) (s : State), 1 ≤ n.toNat → 0xFFF < s.i.toNat + n.toNat - 1 →
    exec (.drw x y n) s = .fault (.addressOutOfRange
      { pc := s.pc, opcode := encode (.drw x y n), info := max s.i.toNat 0x1000 })) ∧
  (∀ (x : Reg) (s : State), 0xFFF < s.i.toNat + 2 →
    exec (.ldBVx x) s = .fault (.addressOutOfRange
      { pc := s.pc, opcode := encode (.ldBVx x), info := max s.i.toNat 0x1000 })) ∧
  ∀ (x : Reg) (s : State), 0xFFF < s.i.toNat + x.val →
    exec (.ldIVx x) s = .fault (.addressOutOfRange
      { pc := s.pc, opcode := encode (.ldIVx x), info := max s.i.toNat 0x1000 }) ∧
    exec (.ldVxI x) s = .fault (.addressOutOfRange
      { pc := s.pc, opcode := encode (.ldVxI x), info := max s.i.toNat 0x1000 })

/-- An accessor write outside its domain is a StateFault; one inside it sets that element alone (partly the model's: log 7) (R33, R204, R20, R27, R30). -/
def Obligations.HostWritesAreCheckedAgainstTheirDomain : Prop :=
  (∀ (s : State) (k value : Nat), 255 < value → hostWrite (.v k value) s = .stateFault ∧
    hostWrite (.dt value) s = .stateFault ∧ hostWrite (.st value) s = .stateFault ∧
    hostWrite (.mem k value) s = .stateFault) ∧
  (∀ (s : State) (k value : Nat), 0xFFFF < value → hostWrite (.i value) s = .stateFault ∧
    hostWrite (.pc value) s = .stateFault ∧ hostWrite (.stack k value) s = .stateFault) ∧
  (∀ (s : State) (value : Nat), 16 < value → hostWrite (.sp value) s = .stateFault) ∧
  (∀ (s : State) (a value : Nat), 4095 < a → hostWrite (.mem a value) s = .stateFault) ∧
  (∀ (s : State) (k value : Nat) (pressed : Bool), 15 < k → hostWrite (.key k pressed) s = .stateFault ∧
    hostWrite (.v k value) s = .stateFault ∧ hostWrite (.stack k value) s = .stateFault) ∧
  (∀ (s : State) (x : Reg) (value : Nat), value ≤ 255 → ∃ t, hostWrite (.v x.val value) s = .done t ∧
    (readV t x).toNat = value ∧ (∀ r, r ≠ x → readV t r = readV s r) ∧ t = { s with v := t.v }) ∧
  (∀ (s : State) (value : Nat), value ≤ 255 →
    (∃ t, hostWrite (.dt value) s = .done t ∧ t.dt.toNat = value ∧ t = { s with dt := t.dt }) ∧
    ∃ t, hostWrite (.st value) s = .done t ∧ t.st.toNat = value ∧ t = { s with st := t.st }) ∧
  (∀ (s : State) (value : Nat), value ≤ 0xFFFF →
    (∃ t, hostWrite (.i value) s = .done t ∧ t.i.toNat = value ∧ t = { s with i := t.i }) ∧
    ∃ t, hostWrite (.pc value) s = .done t ∧ t.pc.toNat = value ∧ t = { s with pc := t.pc }) ∧
  (∀ (s : State) (k : Fin 16) (value : Nat), value ≤ 0xFFFF → ∃ t, hostWrite (.stack k.val value) s = .done t ∧
    t.stack[k].toNat = value ∧ (∀ j : Fin 16, j ≠ k → t.stack[j] = s.stack[j]) ∧ t = { s with stack := t.stack }) ∧
  (∀ (s : State) (value : Nat), value ≤ 16 →
    ∃ t, hostWrite (.sp value) s = .done t ∧ t.sp.val = value ∧ t = { s with sp := t.sp }) ∧
  (∀ (s : State) (a value : Nat), Memory.wf s.mem → a ≤ 4095 → value ≤ 255 →
    ∃ t, hostWrite (.mem a value) s = .done t ∧ (memRead t.mem a).toNat = value ∧
      (∀ b, b ≠ a → memRead t.mem b = memRead s.mem b) ∧ t = { s with mem := t.mem }) ∧
  ∀ (s : State) (k : Fin 16) (pressed : Bool), ∃ t, hostWrite (.key k.val pressed) s = .done t ∧
    t.key[k] = pressed ∧ (∀ j : Fin 16, j ≠ k → t.key[j] = s.key[j]) ∧ t = { s with key := t.key }

/-- Every accessor write the core accepts keeps memory in its canonical form (R30, R33). -/
def Obligations.HostWritesKeepTheMemoryForm : Prop :=
  ∀ (w : HostWrite) (s t : State), Memory.wf s.mem → hostWrite w s = .done t → Memory.wf t.mem

/-- A ROM of at most 3584 bytes is copied to 0x200 upward and nothing else changes; a longer one is a loader error (R233). -/
def Obligations.RomLoadsAtTheProgramStart : Prop :=
  (∀ (rom : List Byte) (s : State), Memory.wf s.mem → rom.length ≤ 3584 → ∃ t, loadRom rom s = .done t ∧
    (∀ (k : Nat) (h : k < rom.length), memRead t.mem (0x200 + k) = rom[k]) ∧
    (∀ a, a < 0x200 ∨ 0x200 + rom.length ≤ a → memRead t.mem a = memRead s.mem a) ∧ t = { s with mem := t.mem }) ∧
  ∀ (rom : List Byte) (s : State), 3584 < rom.length → loadRom rom s = .loaderError
end

