-- ==== Sys2Proof/Laws/Decode.lean ====
section
/-! SUPPORT. The fields of a packed word, the fields of a masked word, and the bytes of a word: what a proof about
`decode` and `encode` cites. -/

namespace Sys2Proof

/-! ### The bits of a packed word -/

theorem getLsbD_packXyn (c : Nibble) (x y : Reg) (n : Nibble) (j : Nat) :
    (packXyn c x y n).getLsbD j =
      if j < 4 then n.getLsbD j else if j < 8 then (regBits y).getLsbD (j - 4)
      else if j < 12 then (regBits x).getLsbD (j - 8) else c.getLsbD (j - 12) := by
  unfold packXyn
  rw [BitVec.getLsbD_append, BitVec.getLsbD_append, BitVec.getLsbD_append]
  by_cases h4 : j < 4
  · simp [h4]
  by_cases h8 : j < 8
  · simp [h4, h8, show j - 4 < 4 by omega]
  by_cases h12 : j < 12
  · simp [h4, h8, h12, show ¬ j - 4 < 4 by omega, show j - 4 - 4 = j - 8 by omega, show j - 8 < 4 by omega]
  · simp [h4, h8, h12, show ¬ j - 4 < 4 by omega, show ¬ j - 4 - 4 < 4 by omega, show j - 4 - 4 - 4 = j - 12 by omega]

theorem getLsbD_packXkk (c : Nibble) (x : Reg) (kk : Byte) (j : Nat) :
    (packXkk c x kk).getLsbD j =
      if j < 8 then kk.getLsbD j else if j < 12 then (regBits x).getLsbD (j - 8) else c.getLsbD (j - 12) := by
  unfold packXkk
  rw [BitVec.getLsbD_append, BitVec.getLsbD_append]
  by_cases h8 : j < 8
  · simp [h8]
  by_cases h12 : j < 12
  · simp [h8, h12, show j - 8 < 4 by omega]
  · simp [h8, h12, show ¬ j - 8 < 4 by omega, show j - 8 - 4 = j - 12 by omega]

theorem getLsbD_packNnn (c : Nibble) (nnn : Addr) (j : Nat) :
    (packNnn c nnn).getLsbD j = if j < 12 then nnn.getLsbD j else c.getLsbD (j - 12) := by
  unfold packNnn
  rw [BitVec.getLsbD_append]

/-! ### The fields of a packed word -/

@[simp] theorem classOf_packXyn (c : Nibble) (x y : Reg) (n : Nibble) : classOf (packXyn c x y n) = c := by
  apply BitVec.eq_of_getLsbD_eq
  intro j hj
  simp only [classOf, BitVec.getLsbD_extractLsb', getLsbD_packXyn]
  simp [hj, show ¬ 12 + j < 4 by omega, show ¬ 12 + j < 8 by omega]

@[simp] theorem fieldN_packXyn (c : Nibble) (x y : Reg) (n : Nibble) : fieldN (packXyn c x y n) = n := by
  apply BitVec.eq_of_getLsbD_eq
  intro j hj
  simp only [fieldN, BitVec.getLsbD_extractLsb', getLsbD_packXyn]
  simp [hj]

theorem toFin_eq_of_regBits {b : Nibble} {x : Reg} (h : b = regBits x) : b.toFin = x := by
  subst h; rfl

@[simp] theorem fieldX_packXyn (c : Nibble) (x y : Reg) (n : Nibble) : fieldX (packXyn c x y n) = x := by
  apply toFin_eq_of_regBits
  apply BitVec.eq_of_getLsbD_eq
  intro j hj
  simp only [BitVec.getLsbD_extractLsb', getLsbD_packXyn]
  simp [hj, show ¬ 8 + j < 4 by omega, show 8 + j < 12 by omega]

@[simp] theorem fieldY_packXyn (c : Nibble) (x y : Reg) (n : Nibble) : fieldY (packXyn c x y n) = y := by
  apply toFin_eq_of_regBits
  apply BitVec.eq_of_getLsbD_eq
  intro j hj
  simp only [BitVec.getLsbD_extractLsb', getLsbD_packXyn]
  simp [hj, show 4 + j < 8 by omega]

@[simp] theorem classOf_packXkk (c : Nibble) (x : Reg) (kk : Byte) : classOf (packXkk c x kk) = c := by
  apply BitVec.eq_of_getLsbD_eq
  intro j hj
  simp only [classOf, BitVec.getLsbD_extractLsb', getLsbD_packXkk]
  simp [hj, show ¬ 12 + j < 8 by omega]

@[simp] theorem fieldX_packXkk (c : Nibble) (x : Reg) (kk : Byte) : fieldX (packXkk c x kk) = x := by
  apply toFin_eq_of_regBits
  apply BitVec.eq_of_getLsbD_eq
  intro j hj
  simp only [BitVec.getLsbD_extractLsb', getLsbD_packXkk]
  simp [hj, show 8 + j < 12 by omega]

@[simp] theorem fieldKk_packXkk (c : Nibble) (x : Reg) (kk : Byte) : fieldKk (packXkk c x kk) = kk := by
  apply BitVec.eq_of_getLsbD_eq
  intro j hj
  simp only [fieldKk, BitVec.getLsbD_extractLsb', getLsbD_packXkk]
  simp [hj]

@[simp] theorem classOf_packNnn (c : Nibble) (nnn : Addr) : classOf (packNnn c nnn) = c := by
  apply BitVec.eq_of_getLsbD_eq
  intro j hj
  simp only [classOf, BitVec.getLsbD_extractLsb', getLsbD_packNnn]
  simp [hj]

@[simp] theorem fieldNnn_packNnn (c : Nibble) (nnn : Addr) : fieldNnn (packNnn c nnn) = nnn := by
  apply BitVec.eq_of_getLsbD_eq
  intro j hj
  simp only [fieldNnn, BitVec.getLsbD_extractLsb', getLsbD_packNnn]
  simp [hj]

/-! ### A word is its fields -/

theorem packXyn_fields (op : Word) : packXyn (classOf op) (fieldX op) (fieldY op) (fieldN op) = op := by
  apply BitVec.eq_of_getLsbD_eq
  intro j hj
  have hx : regBits (fieldX op) = op.extractLsb' 8 4 := rfl
  have hy : regBits (fieldY op) = op.extractLsb' 4 4 := rfl
  simp only [getLsbD_packXyn, classOf, fieldN, hx, hy, BitVec.getLsbD_extractLsb']
  by_cases h4 : j < 4
  · simp [h4]
  by_cases h8 : j < 8
  · simp [h4, h8, show j - 4 < 4 by omega, show 4 + (j - 4) = j by omega]
  by_cases h12 : j < 12
  · simp [h4, h8, h12, show j - 8 < 4 by omega, show 8 + (j - 8) = j by omega]
  · simp [h4, h8, h12, show j - 12 < 4 by omega, show 12 + (j - 12) = j by omega]

theorem packXkk_fields (op : Word) : packXkk (classOf op) (fieldX op) (fieldKk op) = op := by
  apply BitVec.eq_of_getLsbD_eq
  intro j hj
  have hx : regBits (fieldX op) = op.extractLsb' 8 4 := rfl
  simp only [getLsbD_packXkk, classOf, fieldKk, hx, BitVec.getLsbD_extractLsb']
  by_cases h8 : j < 8
  · simp [h8]
  by_cases h12 : j < 12
  · simp [h8, h12, show j - 8 < 4 by omega, show 8 + (j - 8) = j by omega]
  · simp [h8, h12, show j - 12 < 4 by omega, show 12 + (j - 12) = j by omega]

theorem packNnn_fields (op : Word) : packNnn (classOf op) (fieldNnn op) = op := by
  apply BitVec.eq_of_getLsbD_eq
  intro j hj
  simp only [getLsbD_packNnn, classOf, fieldNnn, BitVec.getLsbD_extractLsb']
  by_cases h12 : j < 12
  · simp [h12]
  · simp [h12, show j - 12 < 4 by omega, show 12 + (j - 12) = j by omega]

/-! ### The fields of a masked word -/

theorem classOf_and (op m : Word) : classOf (op &&& m) = classOf op &&& classOf m := by
  simp [classOf, BitVec.extractLsb'_and]

theorem fieldN_and (op m : Word) : fieldN (op &&& m) = fieldN op &&& fieldN m := by
  simp [fieldN, BitVec.extractLsb'_and]

theorem fieldKk_and (op m : Word) : fieldKk (op &&& m) = fieldKk op &&& fieldKk m := by
  simp [fieldKk, BitVec.extractLsb'_and]

theorem fieldNnn_and (op m : Word) : fieldNnn (op &&& m) = fieldNnn op &&& fieldNnn m := by
  simp [fieldNnn, BitVec.extractLsb'_and]

/-! ### The bytes of a word (R50) -/

theorem opcodeOfBytes_bytes (op : Word) : opcodeOfBytes (highByte op) (lowByte op) = op := by
  apply BitVec.eq_of_getLsbD_eq
  intro j hj
  unfold opcodeOfBytes highByte lowByte
  rw [BitVec.getLsbD_append, BitVec.getLsbD_extractLsb', BitVec.getLsbD_extractLsb']
  by_cases h8 : j < 8
  · simp [h8]
  · simp [h8, show j - 8 < 8 by omega, show 8 + (j - 8) = j by omega]

/-- The table's word, laid out in bytes and decoded, is the word decoded (R50, R76). -/
theorem decodeTableWord_eq (nbits w : Nat) : decodeTableWord nbits w = decode (tableWord nbits w) := by
  unfold decodeTableWord
  simp only [decodeBytes, opcodeOfBytes_bytes]
  cases decode (tableWord nbits w) <;> rfl

end Sys2Proof
end

