-- ==== Sys2Proof/Laws/Memory.lean ====
section
/-! SUPPORT. The laws of memory: a read after a write, what a write leaves alone, and that every memory operation keeps
the canonical form. -/

namespace Sys2Proof.Machine

theorem consCell_wf {a : Nat} {b : Byte} {m : Memory} (hm : Memory.wf m) (ha : a ≤ Config.addrMax)
    (h : ∀ c ∈ m, a < c.1) : Memory.wf (consCell a b m) := by
  unfold consCell
  split
  · exact hm
  · rename_i hb
    exact ⟨List.pairwise_cons.2 ⟨h, hm.1⟩, by
      intro c hc
      rcases List.mem_cons.1 hc with rfl | hc
      · exact ⟨ha, hb⟩
      · exact hm.2 c hc⟩

/-- A write adds no address but its own. -/
theorem mem_memWrite_addr {m : Memory} {a : Nat} {b : Byte} {c : Host.Cell} (h : c ∈ memWrite m a b) :
    c.1 = a ∨ c ∈ m := by
  induction m with
  | nil =>
    simp only [memWrite, consCell] at h
    split at h <;> simp_all
  | cons d m ih =>
    obtain ⟨k, e⟩ := d
    simp only [memWrite, consCell] at h
    split at h
    · split at h <;> simp_all
      rcases h with rfl | h <;> simp_all
    · split at h
      · split at h <;> simp_all
        rcases h with rfl | h <;> simp_all
      · rcases List.mem_cons.1 h with rfl | h
        · simp
        · rcases ih h with h | h <;> simp [h]

/-- Every write inside the address space keeps the canonical form. -/
theorem memWrite_wf {m : Memory} {a : Nat} {b : Byte} (hm : Memory.wf m) (ha : a ≤ Config.addrMax) :
    Memory.wf (memWrite m a b) := by
  induction m with
  | nil => exact consCell_wf hm ha (by simp)
  | cons d m ih =>
    obtain ⟨k, e⟩ := d
    have htail : Memory.wf m := ⟨(List.pairwise_cons.1 hm.1).2, fun c hc => hm.2 c (List.mem_cons_of_mem _ hc)⟩
    have hk : ∀ c ∈ m, k < c.1 := (List.pairwise_cons.1 hm.1).1
    simp only [memWrite]
    split
    · rename_i hlt
      refine consCell_wf hm ha fun c hc => ?_
      rcases List.mem_cons.1 hc with rfl | hc
      · exact hlt
      · exact Nat.lt_trans hlt (hk c hc)
    · split
      · rename_i heq
        exact consCell_wf htail ha fun c hc => heq ▸ hk c hc
      · rename_i hge hne
        have hw := ih htail
        refine ⟨List.pairwise_cons.2 ⟨fun c hc => ?_, hw.1⟩, fun c hc => ?_⟩
        · rcases mem_memWrite_addr hc with h | h
          · simp only [h]; omega
          · exact hk c h
        · rcases List.mem_cons.1 hc with rfl | hc
          · exact hm.2 _ (by simp)
          · exact hw.2 c hc

/-- Writing bytes inside the address space keeps the canonical form. -/
theorem memWriteList_wf {m : Memory} {a : Nat} {bs : List Byte} (hm : Memory.wf m)
    (h : a + bs.length ≤ Config.memSize) : Memory.wf (memWriteList m a bs) := by
  induction bs generalizing m a with
  | nil => exact hm
  | cons b bs ih =>
    simp only [List.length_cons] at h
    have hs : Config.memSize = 4096 := rfl
    have ha : Config.addrMax = 4095 := rfl
    exact ih (memWrite_wf hm (by omega)) (by omega)

/-- A write leaves every other address as it was (R54). -/
theorem memRead_memWrite_of_ne {m : Memory} {a c : Nat} {b : Byte} (h : c ≠ a) :
    memRead (memWrite m a b) c = memRead m c := by
  have hcons : ∀ m', memRead (consCell a b m') c = memRead m' c := by
    intro m'
    unfold consCell
    split
    · rfl
    · simp [memRead, h.symm]
  induction m with
  | nil => exact hcons []
  | cons d m ih =>
    obtain ⟨k, e⟩ := d
    simp only [memWrite]
    split
    · exact hcons _
    · split
      · rename_i heq
        rw [hcons]
        simp [memRead, show k ≠ c by omega]
      · simp [memRead, ih]

/-- An address below every listed one reads as an unlisted address does. -/
theorem memRead_of_lt {m : Memory} {a : Nat} (h : ∀ c ∈ m, a < c.1) : memRead m a = unlistedByte := by
  induction m with
  | nil => rfl
  | cons d m ih =>
    have h1 := h d (by simp)
    simp only [memRead]
    rw [if_neg (by omega), ih fun c hc => h c (List.mem_cons_of_mem _ hc)]

/-- A read gives the byte last written there. -/
theorem memRead_memWrite_self {m : Memory} {a : Nat} {b : Byte} (hm : Memory.wf m) :
    memRead (memWrite m a b) a = b := by
  have hcons : ∀ m' : Memory, (∀ c ∈ m', a < c.1) → memRead (consCell a b m') a = b := by
    intro m' h
    unfold consCell
    split
    · rename_i hb
      rw [memRead_of_lt h, hb]
    · simp [memRead]
  induction m with
  | nil => exact hcons [] (by simp)
  | cons d m ih =>
    obtain ⟨k, e⟩ := d
    have htail : Memory.wf m := ⟨(List.pairwise_cons.1 hm.1).2, fun c hc => hm.2 c (List.mem_cons_of_mem _ hc)⟩
    have hk : ∀ c ∈ m, k < c.1 := (List.pairwise_cons.1 hm.1).1
    simp only [memWrite]
    split
    · rename_i hlt
      refine hcons _ fun c hc => ?_
      rcases List.mem_cons.1 hc with rfl | hc
      · exact hlt
      · exact Nat.lt_trans hlt (hk c hc)
    · split
      · rename_i heq
        exact hcons _ fun c hc => heq ▸ hk c hc
      · rename_i hge hne
        simp [memRead, show k ≠ a by omega, ih htail]

/-- Bytes written from `a` upward leave every address outside them as it was. -/
theorem memRead_memWriteList_of_out {m : Memory} {a c : Nat} {bs : List Byte}
    (h : c < a ∨ a + bs.length ≤ c) : memRead (memWriteList m a bs) c = memRead m c := by
  induction bs generalizing m a with
  | nil => rfl
  | cons b bs ih =>
    simp only [List.length_cons] at h
    simp only [memWriteList]
    rw [ih (by omega), memRead_memWrite_of_ne (by omega)]

/-- Each byte written reads back. -/
theorem memRead_memWriteList {m : Memory} {a k : Nat} {bs : List Byte} (hm : Memory.wf m)
    (hr : a + bs.length ≤ Config.memSize) (hk : k < bs.length) :
    memRead (memWriteList m a bs) (a + k) = bs[k] := by
  induction bs generalizing m a k with
  | nil => simp at hk
  | cons b bs ih =>
    simp only [List.length_cons] at hr hk
    have hs : Config.memSize = 4096 := rfl
    have ha : Config.addrMax = 4095 := rfl
    simp only [memWriteList]
    cases k with
    | zero =>
      rw [memRead_memWriteList_of_out (by omega)]
      exact memRead_memWrite_self hm
    | succ k =>
      have := ih (m := memWrite m a b) (a := a + 1) (k := k) (memWrite_wf hm (by omega)) (by omega) (by omega)
      simpa [Nat.add_assoc, Nat.add_comm 1 k] using this

@[simp] theorem length_memReadList (m : Memory) (a n : Nat) : (memReadList m a n).length = n := by
  induction n generalizing a with
  | zero => rfl
  | succ n ih => simp [memReadList, ih]

/-- The k-th byte of a list read from `a` is the byte at `a + k`. -/
theorem getElem_memReadList (m : Memory) (a n k : Nat) (h : k < (memReadList m a n).length) :
    (memReadList m a n)[k] = memRead m (a + k) := by
  induction n generalizing a k with
  | zero => simp at h
  | succ n ih =>
    cases k with
    | zero => rfl
    | succ k =>
      simp only [memReadList, List.getElem_cons_succ]
      rw [ih]
      simp [Nat.add_assoc, Nat.add_comm 1 k]

end Sys2Proof.Machine
end

