-- ==== Sys2Proof/Laws/State.lean ====
section
/-! SUPPORT. The field lemmas of the state's updates: what each update leaves in each field, so that no proof unfolds a
record update again. -/

namespace Sys2Proof.Machine

@[simp] theorem writeV_v (x : Reg) (b : Byte) (s : State) : (writeV x b s).v = s.v.set x b := rfl
@[simp] theorem writeV_i (x : Reg) (b : Byte) (s : State) : (writeV x b s).i = s.i := rfl
@[simp] theorem writeV_pc (x : Reg) (b : Byte) (s : State) : (writeV x b s).pc = s.pc := rfl
@[simp] theorem writeV_sp (x : Reg) (b : Byte) (s : State) : (writeV x b s).sp = s.sp := rfl
@[simp] theorem writeV_stack (x : Reg) (b : Byte) (s : State) : (writeV x b s).stack = s.stack := rfl
@[simp] theorem writeV_dt (x : Reg) (b : Byte) (s : State) : (writeV x b s).dt = s.dt := rfl
@[simp] theorem writeV_st (x : Reg) (b : Byte) (s : State) : (writeV x b s).st = s.st := rfl
@[simp] theorem writeV_mem (x : Reg) (b : Byte) (s : State) : (writeV x b s).mem = s.mem := rfl
@[simp] theorem writeV_fb (x : Reg) (b : Byte) (s : State) : (writeV x b s).fb = s.fb := rfl
@[simp] theorem writeV_key (x : Reg) (b : Byte) (s : State) : (writeV x b s).key = s.key := rfl
@[simp] theorem writeV_result (x : Reg) (b : Byte) (s : State) : (writeV x b s).result = s.result := rfl
@[simp] theorem writeV_fx1eOverflow (x : Reg) (b : Byte) (s : State) : (writeV x b s).fx1eOverflow = s.fx1eOverflow := rfl
@[simp] theorem writeV_draws (x : Reg) (b : Byte) (s : State) : (writeV x b s).draws = s.draws := rfl

@[simp] theorem writeFlag_v (flag : Bool) (s : State) : (writeFlag flag s).v = s.v.set regVF (flagByte flag) := rfl
@[simp] theorem writeFlag_i (flag : Bool) (s : State) : (writeFlag flag s).i = s.i := rfl
@[simp] theorem writeFlag_pc (flag : Bool) (s : State) : (writeFlag flag s).pc = s.pc := rfl
@[simp] theorem writeFlag_sp (flag : Bool) (s : State) : (writeFlag flag s).sp = s.sp := rfl
@[simp] theorem writeFlag_stack (flag : Bool) (s : State) : (writeFlag flag s).stack = s.stack := rfl
@[simp] theorem writeFlag_dt (flag : Bool) (s : State) : (writeFlag flag s).dt = s.dt := rfl
@[simp] theorem writeFlag_st (flag : Bool) (s : State) : (writeFlag flag s).st = s.st := rfl
@[simp] theorem writeFlag_mem (flag : Bool) (s : State) : (writeFlag flag s).mem = s.mem := rfl
@[simp] theorem writeFlag_fb (flag : Bool) (s : State) : (writeFlag flag s).fb = s.fb := rfl
@[simp] theorem writeFlag_key (flag : Bool) (s : State) : (writeFlag flag s).key = s.key := rfl
@[simp] theorem writeFlag_result (flag : Bool) (s : State) : (writeFlag flag s).result = s.result := rfl
@[simp] theorem writeFlag_fx1eOverflow (flag : Bool) (s : State) : (writeFlag flag s).fx1eOverflow = s.fx1eOverflow := rfl
@[simp] theorem writeFlag_draws (flag : Bool) (s : State) : (writeFlag flag s).draws = s.draws := rfl

@[simp] theorem storeBytes_v (a : Nat) (bs : List Byte) (s : State) : (storeBytes a bs s).v = s.v := rfl
@[simp] theorem storeBytes_i (a : Nat) (bs : List Byte) (s : State) : (storeBytes a bs s).i = s.i := rfl
@[simp] theorem storeBytes_pc (a : Nat) (bs : List Byte) (s : State) : (storeBytes a bs s).pc = s.pc := rfl
@[simp] theorem storeBytes_sp (a : Nat) (bs : List Byte) (s : State) : (storeBytes a bs s).sp = s.sp := rfl
@[simp] theorem storeBytes_stack (a : Nat) (bs : List Byte) (s : State) : (storeBytes a bs s).stack = s.stack := rfl
@[simp] theorem storeBytes_dt (a : Nat) (bs : List Byte) (s : State) : (storeBytes a bs s).dt = s.dt := rfl
@[simp] theorem storeBytes_st (a : Nat) (bs : List Byte) (s : State) : (storeBytes a bs s).st = s.st := rfl
@[simp] theorem storeBytes_mem (a : Nat) (bs : List Byte) (s : State) : (storeBytes a bs s).mem = memWriteList s.mem a bs := rfl
@[simp] theorem storeBytes_fb (a : Nat) (bs : List Byte) (s : State) : (storeBytes a bs s).fb = s.fb := rfl
@[simp] theorem storeBytes_key (a : Nat) (bs : List Byte) (s : State) : (storeBytes a bs s).key = s.key := rfl
@[simp] theorem storeBytes_result (a : Nat) (bs : List Byte) (s : State) : (storeBytes a bs s).result = s.result := rfl
@[simp] theorem storeBytes_fx1eOverflow (a : Nat) (bs : List Byte) (s : State) : (storeBytes a bs s).fx1eOverflow = s.fx1eOverflow := rfl
@[simp] theorem storeBytes_draws (a : Nat) (bs : List Byte) (s : State) : (storeBytes a bs s).draws = s.draws := rfl

@[simp] theorem commit_v (draw : Bool) (target : Word) (s : State) : (commit draw target s).v = s.v := rfl
@[simp] theorem commit_i (draw : Bool) (target : Word) (s : State) : (commit draw target s).i = s.i := rfl
@[simp] theorem commit_pc (draw : Bool) (target : Word) (s : State) : (commit draw target s).pc = target := rfl
@[simp] theorem commit_sp (draw : Bool) (target : Word) (s : State) : (commit draw target s).sp = s.sp := rfl
@[simp] theorem commit_stack (draw : Bool) (target : Word) (s : State) : (commit draw target s).stack = s.stack := rfl
@[simp] theorem commit_dt (draw : Bool) (target : Word) (s : State) : (commit draw target s).dt = decay s.dt := rfl
@[simp] theorem commit_st (draw : Bool) (target : Word) (s : State) : (commit draw target s).st = decay s.st := rfl
@[simp] theorem commit_mem (draw : Bool) (target : Word) (s : State) : (commit draw target s).mem = s.mem := rfl
@[simp] theorem commit_fb (draw : Bool) (target : Word) (s : State) : (commit draw target s).fb = s.fb := rfl
@[simp] theorem commit_key (draw : Bool) (target : Word) (s : State) : (commit draw target s).key = s.key := rfl
@[simp] theorem commit_result (draw : Bool) (target : Word) (s : State) : (commit draw target s).result = .completed draw := rfl
@[simp] theorem commit_fx1eOverflow (draw : Bool) (target : Word) (s : State) : (commit draw target s).fx1eOverflow = s.fx1eOverflow := rfl
@[simp] theorem commit_draws (draw : Bool) (target : Word) (s : State) : (commit draw target s).draws = s.draws := rfl

@[simp] theorem readV_commit (draw : Bool) (target : Word) (s : State) (x : Reg) :
    readV (commit draw target s) x = readV s x := rfl

@[simp] theorem readV_storeBytes (a : Nat) (bs : List Byte) (s : State) (x : Reg) :
    readV (storeBytes a bs s) x = readV s x := rfl

/-- `V[r]` after `V[x] <- b`. -/
theorem readV_writeV (x r : Reg) (b : Byte) (s : State) :
    readV (writeV x b s) r = if x = r then b else readV s r := by
  simp [readV, writeV, Vector.getElem_set, Fin.ext_iff]

@[simp] theorem readV_writeV_self (x : Reg) (b : Byte) (s : State) : readV (writeV x b s) x = b := by
  simp [readV_writeV]

theorem readV_writeV_of_ne {x r : Reg} (b : Byte) (s : State) (h : x ≠ r) :
    readV (writeV x b s) r = readV s r := by
  simp [readV_writeV, h]

end Sys2Proof.Machine
end

