-- ==== Sys2Proof/Laws/Ops.lean ====
section
/-! SUPPORT. One lemma for each shared operation that says everything it can do, for proofs to cite. -/

namespace Sys2Proof.Machine

/-! ### The outcomes of a step -/

@[simp] theorem complete_next {draw : Bool} {target : Word} {s t : State} :
    complete draw target s = .next t ↔ commit draw target s = t := by
  simp [complete]

@[simp] theorem advance_next {s t : State} : advance s = .next t ↔ commit false (s.pc + 2) s = t := by
  simp [advance]

@[simp] theorem advanceDraw_next {s t : State} : advanceDraw s = .next t ↔ commit true (s.pc + 2) s = t := by
  simp [advanceDraw]

@[simp] theorem skipIf_next {condition : Bool} {s t : State} :
    skipIf condition s = .next t ↔ commit false (s.pc + if condition then 4 else 2) s = t := by
  simp [skipIf]

@[simp] theorem block_next {s t : State} : block s = .next t ↔ { s with result := .blocked } = t := by
  simp [block]

@[simp] theorem raise_not_next (kind : FaultRecord → Fault) (i : Instr) (info : Nat) (s t : State) :
    raise kind i info s ≠ .next t := by
  simp [raise]

@[simp] theorem raiseRange_not_next (i : Instr) (base : Nat) (s t : State) : raiseRange i base s ≠ .next t := by
  simp [raiseRange]

/-- The decay as a number: one less, not below 0 (R215). -/
theorem decay_toNat (t : Byte) : (decay t).toNat = t.toNat - 1 := by
  unfold decay
  split
  · rename_i h; simp [h]
  · rename_i h
    have h0 : t.toNat ≠ 0 := fun e => h (BitVec.eq_of_toNat_eq (by simpa using e))
    have := t.isLt
    have h1 : (1 : Byte).toNat = 1 := rfl
    rw [BitVec.toNat_sub, h1]
    omega

/-- The range check says that there is no byte, or that the last one is at or below 0xFFF (R56). -/
theorem inRange_iff (base count : Nat) : inRange base count = true ↔ count = 0 ∨ base + count ≤ 4096 := by
  unfold inRange Config.memSize
  rw [Bool.or_eq_true, decide_eq_true_iff, decide_eq_true_iff]

/-- The fetch, both ways (R74, R75). -/
theorem fetch_cases (s : State) :
    (s.pc.toNat ≤ 0xFFE ∧ fetch s = .ok (opcodeAt s.mem s.pc.toNat)) ∨
    (0xFFE < s.pc.toNat ∧
      fetch s = .error (.addressOutOfRange { pc := s.pc, opcode := 0, info := max s.pc.toNat 0x1000 })) := by
  unfold fetch
  by_cases h : s.pc.toNat ≤ 0xFFE
  · refine .inl ⟨h, ?_⟩
    rw [if_pos ((inRange_iff _ _).2 (by omega))]
  · refine .inr ⟨by omega, ?_⟩
    rw [if_neg (by rw [inRange_iff]; omega)]
    rfl

/-- Everything a step can do: a fetch fault, an unknown opcode, or the instruction at PC (R84, R85). -/
theorem step_cases (s : State) :
    (0xFFE < s.pc.toNat ∧
      step s = .fault (.addressOutOfRange { pc := s.pc, opcode := 0, info := max s.pc.toNat 0x1000 })) ∨
    (s.pc.toNat ≤ 0xFFE ∧ decode (opcodeAt s.mem s.pc.toNat) = none ∧
      step s = .fault (.unknownOpcode { pc := s.pc, opcode := opcodeAt s.mem s.pc.toNat, info := 0 })) ∨
    (s.pc.toNat ≤ 0xFFE ∧ ∃ i, decode (opcodeAt s.mem s.pc.toNat) = some i ∧ step s = exec i s) := by
  rcases fetch_cases s with ⟨h, hf⟩ | ⟨h, hf⟩
  · right
    cases hd : decode (opcodeAt s.mem s.pc.toNat) with
    | none => exact .inl ⟨h, rfl, by simp [step, fetchInstr, hf, hd]⟩
    | some i => exact .inr ⟨h, i, rfl, by simp [step, fetchInstr, hf, hd]⟩
  · exact .inl ⟨h, by simp [step, fetchInstr, hf]⟩

/-! ### Registers -/

theorem length_regBytes (s : State) (x : Reg) : (regBytes s x).length = x.val + 1 := by
  have := x.isLt
  simp only [regBytes, List.length_take, Vector.length_toList]
  omega

/-- The k-th stored byte of Fx55 is V[k] (R187). -/
theorem getElem_regBytes (s : State) (x : Reg) (k : Nat) (h : k < (regBytes s x).length) (hk : k < 16) :
    (regBytes s x)[k] = readV s ⟨k, hk⟩ := by
  simp [regBytes, readV]

/-- Setting registers from number `k` upward: each gets its byte, every other one keeps its value (R188). -/
theorem getElem_setRegs (v : Vector Byte 16) (k : Nat) (bs : List Byte) (j : Nat) (hj : j < 16) :
    (setRegs v k bs)[j] = if h : k ≤ j ∧ j < k + bs.length then bs[j - k] else v[j] := by
  induction bs generalizing v k with
  | nil =>
    rw [dif_neg (by simp)]
    rfl
  | cons b bs ih =>
    simp only [setRegs, ih, List.length_cons]
    by_cases h1 : k + 1 ≤ j ∧ j < k + 1 + bs.length
    · rw [dif_pos h1, dif_pos (by omega)]
      obtain ⟨d, rfl⟩ : ∃ d, j = k + 1 + d := ⟨j - (k + 1), by omega⟩
      simp [show k + 1 + d - k = d + 1 by omega, show k + 1 + d - (k + 1) = d by omega]
    · rw [dif_neg h1]
      by_cases h2 : j = k
      · subst h2
        rw [dif_pos (by omega)]
        simp
      · rw [dif_neg (by omega)]
        exact Vector.getElem_setIfInBounds_ne _ (by omega)

/-! ### Framebuffer -/

/-- Plotting a cell inverts it, leaves every other cell, and collides where the cell was 1 (R154). -/
theorem pixel_plot (x cx : Fin 64) (y cy : Fin 32) (p : Framebuffer × Bool) :
    pixel (plot x y p).1 cx cy = (pixel p.1 cx cy ^^ (decide (x = cx) && decide (y = cy))) := by
  unfold plot pixel
  by_cases hy : y = cy
  · subst hy
    simp [Fin.ext_iff, eq_comm]
  · have : y.val ≠ cy.val := fun e => hy (Fin.ext e)
    simp [hy, this]

@[simp] theorem plot_collision (x : Fin 64) (y : Fin 32) (p : Framebuffer × Bool) :
    (plot x y p).2 = (p.2 || pixel p.1 x y) := rfl

/-! ### The host -/

/-- An accessor write is made exactly inside its domain, and otherwise changes nothing (R33, R204). -/
theorem hostWrite_cases (w : HostWrite) (s : State) :
    (w.inDomain = true ∧ hostWrite w s = .done (w.apply s)) ∨ (w.inDomain = false ∧ hostWrite w s = .stateFault) := by
  unfold hostWrite
  cases h : w.inDomain <;> simp

/-- A loaded image keeps memory's canonical form. -/
theorem loadImage_wf {base : Nat} {image : List Byte} {s t : State} (hs : Memory.wf s.mem)
    (h : loadImage base image s = .done t) : Memory.wf t.mem := by
  unfold loadImage at h
  split at h
  · rename_i hr
    injection h with h
    subst h
    rcases (inRange_iff _ _).1 hr with h0 | h0
    · rw [List.eq_nil_of_length_eq_zero h0]
      exact hs
    · exact memWriteList_wf hs h0
  · simp at h

end Sys2Proof.Machine
end

