-- ==== Sys2Proof/Laws/Framebuffer.lean ====
section
/-! SUPPORT. What drawing does, cell by cell: the loops of `drawRow` and `drawSprite` XOR exactly the cells that a set
sprite bit lands on, and collide exactly where such a cell was 1. -/

namespace Sys2Proof.Machine

theorem wrapColumn_eq_iff (x : Nat) (cx : Fin 64) : wrapColumn x = cx ↔ x % 64 = cx.val := by
  simp [wrapColumn, Fin.ofNat, Fin.ext_iff]

theorem wrapRow_eq_iff (y : Nat) (cy : Fin 32) : wrapRow y = cy ↔ y % 32 = cy.val := by
  simp [wrapRow, Fin.ofNat, Fin.ext_iff]

/-- Two framebuffers with the same cells are the same. -/
theorem framebuffer_ext {a b : Framebuffer} (h : ∀ cx cy, pixel a cx cy = pixel b cx cy) : a = b := by
  apply Vector.ext
  intro i hi
  apply BitVec.eq_of_getLsbD_eq
  intro j hj
  exact h ⟨j, hj⟩ ⟨i, hi⟩

/-- A set bit of the byte, in one of the listed columns, lands on the cell. -/
def RowHit (x0 : Nat) (y : Fin 32) (b : Byte) (cols : List Nat) (cx : Fin 64) (cy : Fin 32) : Prop :=
  y = cy ∧ ∃ col ∈ cols, b.getLsbD (7 - col) = true ∧ (x0 + col) % 64 = cx.val

/-- A set bit of one of the bytes, in any column, lands on the cell. -/
def SpriteHit (x0 y0 : Nat) (bs : List Byte) (cx : Fin 64) (cy : Fin 32) : Prop :=
  ∃ (row : Nat) (h : row < bs.length), RowHit x0 (wrapRow (y0 + row)) bs[row] (List.range 8) cx cy

/-- What drawing from `p` to `q` does where `hit` says which cells the sprite lands on. -/
def Drawn (hit : Fin 64 → Fin 32 → Prop) (p q : Framebuffer × Bool) : Prop :=
  (∀ cx cy, pixel q.1 cx cy = true ↔ ¬ (pixel p.1 cx cy = true ↔ hit cx cy)) ∧
  (q.2 = true ↔ p.2 = true ∨ ∃ cx cy, hit cx cy ∧ pixel p.1 cx cy = true)

/-- Drawing nothing. -/
theorem drawn_refl {hit : Fin 64 → Fin 32 → Prop} (h : ∀ cx cy, ¬ hit cx cy) (p : Framebuffer × Bool) :
    Drawn hit p p := by
  constructor
  · intro cx cy; simp [h cx cy]
  · simp [h]

/-- Drawing twice on cells that do not meet is drawing on both. -/
theorem drawn_trans {hit₁ hit₂ : Fin 64 → Fin 32 → Prop} {p q r : Framebuffer × Bool} (h₁ : Drawn hit₁ p q)
    (h₂ : Drawn hit₂ q r) (hdisj : ∀ cx cy, hit₁ cx cy → ¬ hit₂ cx cy) :
    Drawn (fun cx cy => hit₁ cx cy ∨ hit₂ cx cy) p r := by
  constructor
  · intro cx cy
    rw [h₂.1, h₁.1]
    have := hdisj cx cy
    tauto
  · rw [h₂.2, h₁.2]
    constructor
    · rintro ((h | ⟨cx, cy, ha, hb⟩) | ⟨cx, cy, ha, hb⟩)
      · exact .inl h
      · exact .inr ⟨cx, cy, .inl ha, hb⟩
      · refine .inr ⟨cx, cy, .inr ha, ?_⟩
        rw [h₁.1] at hb
        have := hdisj cx cy
        tauto
    · rintro (h | ⟨cx, cy, ha | ha, hb⟩)
      · exact .inl (.inl h)
      · exact .inl (.inr ⟨cx, cy, ha, hb⟩)
      · refine .inr ⟨cx, cy, ha, ?_⟩
        rw [h₁.1]
        have := hdisj cx cy
        tauto

theorem drawn_congr {hit₁ hit₂ : Fin 64 → Fin 32 → Prop} {p q : Framebuffer × Bool}
    (h : ∀ cx cy, hit₁ cx cy ↔ hit₂ cx cy) : Drawn hit₁ p q ↔ Drawn hit₂ p q := by
  simp only [Drawn, h]

theorem drawn_plot (x : Fin 64) (y : Fin 32) (p : Framebuffer × Bool) :
    Drawn (fun cx cy => x = cx ∧ y = cy) p (plot x y p) := by
  constructor
  · intro cx cy
    rw [pixel_plot]
    by_cases h1 : x = cx <;> by_cases h2 : y = cy <;> simp [h1, h2]
  · rw [plot_collision, Bool.or_eq_true]
    constructor
    · rintro (h | h)
      · exact .inl h
      · exact .inr ⟨x, y, ⟨rfl, rfl⟩, h⟩
    · rintro (h | ⟨cx, cy, ⟨rfl, rfl⟩, h⟩)
      · exact .inl h
      · exact .inr h

/-- The column loop, for columns that land on different cells. -/
theorem drawn_columns (x0 : Nat) (y : Fin 32) (b : Byte) (cols : List Nat)
    (hd : cols.Pairwise fun c d => (x0 + c) % 64 ≠ (x0 + d) % 64) (p : Framebuffer × Bool) :
    Drawn (RowHit x0 y b cols) p
      (cols.foldl (fun p col => if b.getLsbD (7 - col) then plot (wrapColumn (x0 + col)) y p else p) p) := by
  induction cols generalizing p with
  | nil => exact drawn_refl (by simp [RowHit]) p
  | cons c cols ih =>
    obtain ⟨hc, hcols⟩ := List.pairwise_cons.1 hd
    simp only [List.foldl_cons]
    by_cases hb : b.getLsbD (7 - c) = true
    · rw [if_pos hb]
      refine (drawn_congr fun cx cy => ?_).1
        (drawn_trans (drawn_plot (wrapColumn (x0 + c)) y p) (ih hcols _) ?_)
      · simp only [RowHit, List.mem_cons, wrapColumn_eq_iff]
        constructor
        · rintro (⟨h1, h2⟩ | ⟨h1, d, hd, h2, h3⟩)
          · exact ⟨h2, c, .inl rfl, hb, h1⟩
          · exact ⟨h1, d, .inr hd, h2, h3⟩
        · rintro ⟨h1, d, rfl | hd, h2, h3⟩
          · exact .inl ⟨h3, h1⟩
          · exact .inr ⟨h1, d, hd, h2, h3⟩
      · rintro cx cy ⟨h, _⟩ ⟨_, d, hd, _, h3⟩
        exact hc d hd (((wrapColumn_eq_iff _ _).1 h).trans h3.symm)
    · rw [if_neg hb]
      refine (drawn_congr fun cx cy => ?_).1 (ih hcols p)
      simp only [RowHit, List.mem_cons]
      constructor
      · rintro ⟨h1, d, hd, h2, h3⟩
        exact ⟨h1, d, .inr hd, h2, h3⟩
      · rintro ⟨h1, d, rfl | hd, h2, h3⟩
        · exact absurd h2 hb
        · exact ⟨h1, d, hd, h2, h3⟩

/-- One sprite byte (R154 to R156). -/
theorem drawn_drawRow (x0 : Nat) (y : Fin 32) (b : Byte) (p : Framebuffer × Bool) :
    Drawn (RowHit x0 y b (List.range 8)) p (drawRow x0 y b p) := by
  apply drawn_columns
  rw [List.pairwise_iff_getElem]
  intro i j hi hj hij
  simp only [List.length_range, List.getElem_range] at hi hj ⊢
  omega

/-- The whole sprite, of at most 32 rows: no cell is touched twice (R157). -/
theorem drawn_drawSprite (x0 y0 : Nat) (bs : List Byte) (hl : bs.length ≤ 32) (p : Framebuffer × Bool) :
    Drawn (SpriteHit x0 y0 bs) p (drawSprite x0 y0 bs p) := by
  induction bs generalizing y0 p with
  | nil => exact drawn_refl (by simp [SpriteHit]) p
  | cons b bs ih =>
    simp only [List.length_cons] at hl
    simp only [drawSprite]
    refine (drawn_congr fun cx cy => ?_).1
      (drawn_trans (drawn_drawRow x0 (wrapRow y0) b p) (ih (y0 + 1) (by omega) _) ?_)
    · constructor
      · rintro (h | ⟨row, h, hh⟩)
        · exact ⟨0, by simp, h⟩
        · exact ⟨row + 1, by simpa using h, by simpa [Nat.add_assoc, Nat.add_comm 1 row] using hh⟩
      · rintro ⟨row, h, hh⟩
        cases row with
        | zero => exact .inl hh
        | succ row =>
          exact .inr ⟨row, by simpa using h, by simpa [Nat.add_assoc, Nat.add_comm 1 row] using hh⟩
    · rintro cx cy ⟨h1, _⟩ ⟨row, hr, h2, _⟩
      rw [wrapRow_eq_iff] at h1 h2
      omega

end Sys2Proof.Machine
end

