-- ==== Sys2Proof/Laws/Operands.lean ====
section
/-! SUPPORT. Operand forms as numbers, the keypad scan, and the flag byte. -/

namespace Sys2Proof.Machine

/-- A register read depends on the registers alone. -/
theorem readV_congr {s t : State} (h : t.v = s.v) (x : Reg) : readV t x = readV s x := by
  simp [readV, h]

/-- `V[r]` after a flag write. -/
theorem readV_writeFlag (flag : Bool) (r : Reg) (s : State) :
    readV (writeFlag flag s) r = if regVF = r then flagByte flag else readV s r :=
  readV_writeV _ _ _ _

/-- The flag is written first, and the result holds where both meet in VF (D8). -/
@[simp] theorem writeFlagThenV_eq (x : Reg) (flag : Bool) (result : Byte) (s : State) :
    writeFlagThenV x flag result s = writeV x result (writeFlag flag s) := rfl

/-- An entry inside a vector, whatever the default is. -/
theorem vector_getD {α : Type} {n k : Nat} (xs : Vector α n) (d : α) (h : k < n) : xs.getD k d = xs[k] := by
  simp [Vector.getD, h]

theorem keyPressed_eq (s : State) (k : Fin 16) : keyPressed s k.val = s.key[k] :=
  vector_getD s.key false k.isLt

theorem zextAddr_toNat (nnn : Addr) : (zextAddr nnn).toNat = nnn.toNat := by
  have := nnn.isLt
  simp only [zextAddr, BitVec.toNat_setWidth]
  omega

theorem digitAddr_toNat (b : Byte) : (digitAddr b).toNat = b.toNat * 5 := by
  have := b.isLt
  simp only [digitAddr, BitVec.toNat_ofNat]
  omega

/-- The scan of the first `n` keys keeps the last match (R181). -/
theorem scan_keys (s : State) (n : Nat) :
    let found := (List.range n).foldl (fun found k => if keyPressed s k then some k else found) none
    (found = none ∧ ∀ k, k < n → keyPressed s k = false) ∨
    ∃ k, found = some k ∧ k < n ∧ keyPressed s k = true ∧ ∀ j, k < j → j < n → keyPressed s j = false := by
  induction n with
  | zero => exact .inl ⟨rfl, by omega⟩
  | succ n ih =>
    simp only [List.range_succ, List.foldl_append, List.foldl_cons, List.foldl_nil]
    by_cases h : keyPressed s n = true
    · exact .inr ⟨n, by simp [h], by omega, h, by omega⟩
    · have hf : keyPressed s n = false := by simpa using h
      rw [if_neg h]
      rcases ih with ⟨h1, h2⟩ | ⟨k, h1, h2, h3, h4⟩
      · refine .inl ⟨h1, fun k hk => ?_⟩
        by_cases e : k = n
        · rw [e]; exact hf
        · exact h2 k (by omega)
      · refine .inr ⟨k, h1, by omega, h3, fun j hj hjn => ?_⟩
        by_cases e : j = n
        · rw [e]; exact hf
        · exact h4 j hj (by omega)

/-- Everything the keypad scan can answer (R181). -/
theorem highestKey_cases (s : State) :
    (highestKey s = none ∧ ∀ k, k < 16 → keyPressed s k = false) ∨
    ∃ k, highestKey s = some k ∧ k < 16 ∧ keyPressed s k = true ∧ ∀ j, k < j → j < 16 → keyPressed s j = false :=
  scan_keys s 16

end Sys2Proof.Machine
end

