-- ==== Sys2Proof/Laws/PerInstr.lean ====
section
/-! SUPPORT. The family `Encoding`: every instruction's opcode lies in its own row of the R78 table
(`op AND mask = match`), one lemma per constructor. -/

namespace Sys2Proof.Laws

/-- The opcode of the instruction matches its own row of spec/30_encoding.md R78. -/
def Encoding.Statement (i : Instr) : Prop := encode i &&& (rowOf i).mask = (rowOf i).pattern

/-- A masked packed word, field by field. -/
theorem packXyn_and (c c' : Nibble) (x : Reg) (y : Reg) (n n' : Nibble) (m : Word)
    (hc : c &&& classOf m = c') (hx : (regBits x) &&& m.extractLsb' 8 4 = 0) (hy : (regBits y) &&& m.extractLsb' 4 4 = 0)
    (hn : n &&& fieldN m = n') : packXyn c x y n &&& m = packXyn c' 0 0 n' := by
  subst hc hn
  apply BitVec.eq_of_getLsbD_eq
  intro j hj
  have h0 : regBits 0 = 0 := rfl
  have e8 : ∀ k, ((regBits x) &&& m.extractLsb' 8 4).getLsbD k = false := by simp [hx]
  have e4 : ∀ k, ((regBits y) &&& m.extractLsb' 4 4).getLsbD k = false := by simp [hy]
  simp only [BitVec.getLsbD_and, getLsbD_packXyn, h0, classOf, fieldN, BitVec.getLsbD_extractLsb'] at e8 e4 ⊢
  by_cases h4 : j < 4
  · simp [h4]
  by_cases h8 : j < 8
  · have := e4 (j - 4)
    simp_all [show j - 4 < 4 by omega, show 4 + (j - 4) = j by omega]
  by_cases h12 : j < 12
  · have := e8 (j - 8)
    rw [if_neg h4, if_neg h8, if_pos h12]
    simpa [show j - 8 < 4 by omega, show 8 + (j - 8) = j by omega, h4, h8, h12] using this
  · simp [h4, h8, h12, show j - 12 < 4 by omega, show 12 + (j - 12) = j by omega]

/-- A masked packed word, field by field. -/
theorem packXkk_and (c c' : Nibble) (x : Reg) (kk kk' : Byte) (m : Word)
    (hc : c &&& classOf m = c') (hx : (regBits x) &&& m.extractLsb' 8 4 = 0)
    (hk : kk &&& fieldKk m = kk') : packXkk c x kk &&& m = packXkk c' 0 kk' := by
  subst hc hk
  apply BitVec.eq_of_getLsbD_eq
  intro j hj
  have h0 : regBits 0 = 0 := rfl
  have e8 : ∀ k, ((regBits x) &&& m.extractLsb' 8 4).getLsbD k = false := by simp [hx]
  simp only [BitVec.getLsbD_and, getLsbD_packXkk, h0, classOf, fieldKk, BitVec.getLsbD_extractLsb'] at e8 ⊢
  by_cases h8 : j < 8
  · simp [h8]
  by_cases h12 : j < 12
  · have := e8 (j - 8)
    simp_all [show j - 8 < 4 by omega, show 8 + (j - 8) = j by omega]
  · simp [h8, h12, show j - 12 < 4 by omega, show 12 + (j - 12) = j by omega]

/-- A masked packed word, field by field. -/
theorem packNnn_and (c c' : Nibble) (nnn nnn' : Addr) (m : Word)
    (hc : c &&& classOf m = c') (hn : nnn &&& fieldNnn m = nnn') : packNnn c nnn &&& m = packNnn c' nnn' := by
  subst hc hn
  apply BitVec.eq_of_getLsbD_eq
  intro j hj
  simp only [BitVec.getLsbD_and, getLsbD_packNnn, classOf, fieldNnn, BitVec.getLsbD_extractLsb']
  by_cases h12 : j < 12
  · simp [h12]
  · simp [h12, show j - 12 < 4 by omega, show 12 + (j - 12) = j by omega]

/-- The rows with mask 0xF000 and `x`, `kk`. -/
theorem packXkk_class (c : Nibble) (x : Reg) (kk : Byte) : packXkk c x kk &&& 0xF000 = packXkk c 0 0 :=
  packXkk_and c c x kk 0 _ (BitVec.and_allOnes) (BitVec.and_zero) (BitVec.and_zero)

/-- The rows with mask 0xF0FF. -/
theorem packXkk_low (c : Nibble) (x : Reg) (kk : Byte) : packXkk c x kk &&& 0xF0FF = packXkk c 0 kk :=
  packXkk_and c c x kk kk _ (BitVec.and_allOnes) (BitVec.and_zero) (BitVec.and_allOnes)

/-- The rows with mask 0xF00F. -/
theorem packXyn_low (c : Nibble) (x y : Reg) (n : Nibble) : packXyn c x y n &&& 0xF00F = packXyn c 0 0 n :=
  packXyn_and c c x y n n _ (BitVec.and_allOnes) (BitVec.and_zero) (BitVec.and_zero) (BitVec.and_allOnes)

/-- The row of Dxyn. -/
theorem packXyn_class (c : Nibble) (x y : Reg) (n : Nibble) : packXyn c x y n &&& 0xF000 = packXyn c 0 0 0 :=
  packXyn_and c c x y n 0 _ (BitVec.and_allOnes) (BitVec.and_zero) (BitVec.and_zero) (BitVec.and_zero)

/-- The rows with mask 0xF000 and `nnn`. -/
theorem packNnn_class (c : Nibble) (nnn : Addr) : packNnn c nnn &&& 0xF000 = packNnn c 0 :=
  packNnn_and c c nnn 0 _ (BitVec.and_allOnes) (BitVec.and_zero)

theorem Encoding.cls : Encoding.Statement (.cls) := rfl
theorem Encoding.ret : Encoding.Statement (.ret) := rfl
theorem Encoding.jp (nnn : Addr) : Encoding.Statement (.jp nnn) := packNnn_class _ _
theorem Encoding.call (nnn : Addr) : Encoding.Statement (.call nnn) := packNnn_class _ _
theorem Encoding.seImm (x : Reg) (kk : Byte) : Encoding.Statement (.seImm x kk) := packXkk_class _ _ _
theorem Encoding.sneImm (x : Reg) (kk : Byte) : Encoding.Statement (.sneImm x kk) := packXkk_class _ _ _
theorem Encoding.seReg (x : Reg) (y : Reg) : Encoding.Statement (.seReg x y) := packXyn_low _ _ _ _
theorem Encoding.ldImm (x : Reg) (kk : Byte) : Encoding.Statement (.ldImm x kk) := packXkk_class _ _ _
theorem Encoding.addImm (x : Reg) (kk : Byte) : Encoding.Statement (.addImm x kk) := packXkk_class _ _ _
theorem Encoding.ldReg (x : Reg) (y : Reg) : Encoding.Statement (.ldReg x y) := packXyn_low _ _ _ _
theorem Encoding.or (x : Reg) (y : Reg) : Encoding.Statement (.or x y) := packXyn_low _ _ _ _
theorem Encoding.and (x : Reg) (y : Reg) : Encoding.Statement (.and x y) := packXyn_low _ _ _ _
theorem Encoding.xor (x : Reg) (y : Reg) : Encoding.Statement (.xor x y) := packXyn_low _ _ _ _
theorem Encoding.addReg (x : Reg) (y : Reg) : Encoding.Statement (.addReg x y) := packXyn_low _ _ _ _
theorem Encoding.sub (x : Reg) (y : Reg) : Encoding.Statement (.sub x y) := packXyn_low _ _ _ _
theorem Encoding.shr (x : Reg) (y : Reg) : Encoding.Statement (.shr x y) := packXyn_low _ _ _ _
theorem Encoding.subn (x : Reg) (y : Reg) : Encoding.Statement (.subn x y) := packXyn_low _ _ _ _
theorem Encoding.shl (x : Reg) (y : Reg) : Encoding.Statement (.shl x y) := packXyn_low _ _ _ _
theorem Encoding.sneReg (x : Reg) (y : Reg) : Encoding.Statement (.sneReg x y) := packXyn_low _ _ _ _
theorem Encoding.ldI (nnn : Addr) : Encoding.Statement (.ldI nnn) := packNnn_class _ _
theorem Encoding.jpV0 (nnn : Addr) : Encoding.Statement (.jpV0 nnn) := packNnn_class _ _
theorem Encoding.rnd (x : Reg) (kk : Byte) : Encoding.Statement (.rnd x kk) := packXkk_class _ _ _
theorem Encoding.drw (x : Reg) (y : Reg) (n : Nibble) : Encoding.Statement (.drw x y n) := packXyn_class _ _ _ _
theorem Encoding.skp (x : Reg) : Encoding.Statement (.skp x) := packXkk_low _ _ _
theorem Encoding.sknp (x : Reg) : Encoding.Statement (.sknp x) := packXkk_low _ _ _
theorem Encoding.ldVxDt (x : Reg) : Encoding.Statement (.ldVxDt x) := packXkk_low _ _ _
theorem Encoding.ldVxK (x : Reg) : Encoding.Statement (.ldVxK x) := packXkk_low _ _ _
theorem Encoding.ldDtVx (x : Reg) : Encoding.Statement (.ldDtVx x) := packXkk_low _ _ _
theorem Encoding.ldStVx (x : Reg) : Encoding.Statement (.ldStVx x) := packXkk_low _ _ _
theorem Encoding.addIVx (x : Reg) : Encoding.Statement (.addIVx x) := packXkk_low _ _ _
theorem Encoding.ldFVx (x : Reg) : Encoding.Statement (.ldFVx x) := packXkk_low _ _ _
theorem Encoding.ldBVx (x : Reg) : Encoding.Statement (.ldBVx x) := packXkk_low _ _ _
theorem Encoding.ldIVx (x : Reg) : Encoding.Statement (.ldIVx x) := packXkk_low _ _ _
theorem Encoding.ldVxI (x : Reg) : Encoding.Statement (.ldVxI x) := packXkk_low _ _ _

end Sys2Proof.Laws
end

