-- ==== Sys2Proof/Machine/Run.lean ====
section
/-! DEFINITION. The runs of the core, their ends, and the observation (spec/70_reset_and_hazards.md R242 and R243, the
spec's decision D22; spec/60_exceptions.md R203, R204, R223).  A run is a launch state and the host's moves in order; it
goes on until its FIRST end and stays there. -/

namespace Sys2Proof.Machine

/-- One move of the host between steps (R223): it asks for a step, or it writes an element through the accessor port,
the keypad included.  Its reads change nothing and are no moves; construction and the ROM are made before the launch. -/
inductive HostMove where
  | step
  | write (w : HostWrite)
  deriving DecidableEq, Repr

/-- Where a run stands: not ended, or at one of its two ends. -/
inductive RunStatus where
  /-- The run has come to no end; `s` is its state. -/
  | running (s : State)
  /-- The good end, with the state there. -/
  | goodEnd (t : State)
  /-- The bad end: the first FAULT, with the state that raised it, which it left unchanged (R201). -/
  | badEnd (s : State) (f : Fault)
  deriving DecidableEq, Repr

/-- A halt address: the opcode at H is `0x1000 OR H`, a jump to itself. -/
def HaltAddress (h : Addr) (s : State) : Prop := opcodeAt s.mem h.toNat = 0x1000 ||| zextAddr h

/-- "PC = H and the last step was COMPLETED", asked of the state a step answers. -/
def completedAt (h : Addr) (t : State) : Bool :=
  t.pc == zextAddr h &&
    match t.result with
    | .completed _ => true
    | .idle => false
    | .blocked => false

/-- The end, or none, to which a step takes a run from `s`: bad at a FAULT; good where the step was COMPLETED and left
PC at H; none otherwise, after a BLOCKED step in particular.  DEDUCED (assumption log 18, which says where it is unsafe):
a step boundary is where a step of the run ended, so an accessor write ends no run.  A refusal, which no step answers,
changes nothing. -/
def afterStep (h : Addr) (s : State) : RunStatus :=
  match step s with
  | .next t => if completedAt h t then .goodEnd t else .running t
  | .fault f => .badEnd s f
  | .refused _ => .running s

/-- The state after an accessor write, which outside its domain changes nothing and is no FAULT of a step (R204). -/
def afterWrite (w : HostWrite) (s : State) : State :=
  match hostWrite w s with
  | .done t => t
  | .stateFault => s
  | .loaderError => s

/-- Where a run stands after one more move: an ended run stays at its end, since the run is over. -/
def RunStatus.afterMove (h : Addr) (move : HostMove) : RunStatus → RunStatus
  | .running s =>
    match move with
    | .step => afterStep h s
    | .write w => .running (afterWrite w s)
  | .goodEnd t => .goodEnd t
  | .badEnd s f => .badEnd s f

/-- Where the run from `launch` stands after the first `n` of the host's moves. -/
def runStatus (h : Addr) (launch : State) (moves : Nat → HostMove) : Nat → RunStatus
  | 0 => .running launch
  | n + 1 => (runStatus h launch moves n).afterMove h (moves n)

/-- The host keeps requesting steps, "the only liveness assumption" (R243). -/
def KeepsStepping (moves : Nat → HostMove) : Prop := ∀ k, ∃ j, k ≤ j ∧ moves j = .step

/-- The good end: the run ends at the FIRST step boundary where PC = H and the last step was COMPLETED, in state `t`. -/
def GoodEnd (h : Addr) (launch : State) (moves : Nat → HostMove) (t : State) : Prop :=
  ∃ n, runStatus h launch moves n = .goodEnd t

/-- The bad end: the run ends at its first FAULT, which is `f`. -/
def BadEnd (h : Addr) (launch : State) (moves : Nat → HostMove) (f : Fault) : Prop :=
  ∃ n s, runStatus h launch moves n = .badEnd s f

/-- A hang: an infinite run, with steps for ever, that comes to no end; an infinite run of BLOCKED steps is one. -/
def Hang (h : Addr) (launch : State) (moves : Nat → HostMove) : Prop :=
  KeepsStepping moves ∧ ∀ n, ∃ s, runStatus h launch moves n = .running s

/-- The host assumptions of an observation: which sequences of moves (the key sequence, and when the host steps) and
which random draws, numbered from the launch on, are admitted. -/
abbrev HostAssumptions := (Nat → HostMove) → (Nat → Byte) → Prop

/-- The bytes the random source gives a run from `launch` (assumption log 1). -/
def runDraws (launch : State) (k : Nat) : Byte := Config.randomByte (launch.draws + k)

/-- The observation of a launch: H is a halt address of it, and EVERY run that the host assumptions admit, with a host
that keeps requesting steps, reaches the good end in a state that satisfies the post-condition. -/
def Observation (h : Addr) (launch : State) (admits : HostAssumptions) (post : State → Prop) : Prop :=
  HaltAddress h launch ∧
  ∀ moves, KeepsStepping moves → admits moves (runDraws launch) → ∃ t, GoodEnd h launch moves t ∧ post t

end Sys2Proof.Machine
end

