-- ==== Sys2Proof/Laws/Run.lean ====
section
/-! SUPPORT. The laws of runs (spec/70_reset_and_hazards.md R242): an end is final, a run that goes on for ever is a hang,
and what the observation excludes. -/

namespace Sys2Proof.Machine

variable {h : Addr} {launch : State} {moves : Nat → HostMove} {admits : HostAssumptions} {post : State → Prop}

@[simp] theorem afterMove_goodEnd (m : HostMove) (t : State) :
    (RunStatus.goodEnd t).afterMove h m = .goodEnd t := rfl

@[simp] theorem afterMove_badEnd (m : HostMove) (s : State) (f : Fault) :
    (RunStatus.badEnd s f).afterMove h m = .badEnd s f := rfl

/-- Everything a step can do to a run: end it badly, end it well after a COMPLETED step with PC = H, or let it go on. -/
theorem afterStep_cases (h : Addr) (s : State) :
    (∃ f, step s = .fault f ∧ afterStep h s = .badEnd s f) ∨
    (∃ t, step s = .next t ∧ completedAt h t = true ∧ afterStep h s = .goodEnd t) ∨
    (∃ t, step s = .next t ∧ completedAt h t = false ∧ afterStep h s = .running t) ∨
    (∃ r, step s = .refused r ∧ afterStep h s = .running s) := by
  unfold afterStep
  cases hs : step s with
  | next t => cases hc : completedAt h t <;> simp [hc]
  | fault f => simp
  | refused r => simp

/-- `completedAt` in the words of R242. -/
theorem completedAt_iff (h : Addr) (t : State) :
    completedAt h t = true ↔ t.pc = zextAddr h ∧ ∃ draw, t.result = .completed draw := by
  unfold completedAt
  cases t.result <;> simp

/-- A run stays at its good end. -/
theorem runStatus_goodEnd_stays {n : Nat} {t : State} (hn : runStatus h launch moves n = .goodEnd t) (d : Nat) :
    runStatus h launch moves (n + d) = .goodEnd t := by
  induction d with
  | zero => exact hn
  | succ d ih => rw [← Nat.add_assoc, runStatus, ih, afterMove_goodEnd]

/-- A run stays at its bad end. -/
theorem runStatus_badEnd_stays {n : Nat} {s : State} {f : Fault} (hn : runStatus h launch moves n = .badEnd s f)
    (d : Nat) : runStatus h launch moves (n + d) = .badEnd s f := by
  induction d with
  | zero => exact hn
  | succ d ih => rw [← Nat.add_assoc, runStatus, ih, afterMove_badEnd]

/-- A run has one good end. -/
theorem goodEnd_unique {t u : State} (ht : GoodEnd h launch moves t) (hu : GoodEnd h launch moves u) : t = u := by
  obtain ⟨n, hn⟩ := ht
  obtain ⟨m, hm⟩ := hu
  have h1 := runStatus_goodEnd_stays hn m
  rw [Nat.add_comm, runStatus_goodEnd_stays hm n] at h1
  injection h1 with h1
  exact h1.symm

/-- A run that ends well does not end badly. -/
theorem goodEnd_not_badEnd {t : State} {f : Fault} (ht : GoodEnd h launch moves t) : ¬ BadEnd h launch moves f := by
  rintro ⟨m, s, hm⟩
  obtain ⟨n, hn⟩ := ht
  have h1 := runStatus_goodEnd_stays hn m
  rw [Nat.add_comm, runStatus_badEnd_stays hm n] at h1
  nomatch h1

/-- A run that ends well does not hang. -/
theorem goodEnd_not_hang {t : State} (ht : GoodEnd h launch moves t) : ¬ Hang h launch moves := by
  rintro ⟨-, hr⟩
  obtain ⟨n, hn⟩ := ht
  obtain ⟨s, hs⟩ := hr n
  rw [hn] at hs
  nomatch hs

/-- Every run with a host that keeps requesting steps ends well, ends badly or hangs. -/
theorem run_trichotomy (hk : KeepsStepping moves) :
    (∃ t, GoodEnd h launch moves t) ∨ (∃ f, BadEnd h launch moves f) ∨ Hang h launch moves := by
  by_cases hr : ∀ n, ∃ s, runStatus h launch moves n = .running s
  · exact .inr (.inr ⟨hk, hr⟩)
  · obtain ⟨n, hn⟩ := not_forall.1 hr
    cases hs : runStatus h launch moves n with
    | running s => exact absurd ⟨s, hs⟩ hn
    | goodEnd t => exact .inl ⟨t, n, hs⟩
    | badEnd s f => exact .inr (.inl ⟨f, n, s, hs⟩)

/-- Under the observation no admitted run faults or hangs. -/
theorem observation_excludes (ho : Observation h launch admits post) (hk : KeepsStepping moves)
    (ha : admits moves (runDraws launch)) : (∀ f, ¬ BadEnd h launch moves f) ∧ ¬ Hang h launch moves := by
  obtain ⟨t, ht, -⟩ := ho.2 moves hk ha
  exact ⟨fun _ => goodEnd_not_badEnd ht, goodEnd_not_hang ht⟩

end Sys2Proof.Machine
end

