-- ==== Sys2Proof/Tests/Slice0.lean ====
section
/-! SUPPORT. Our own tests: the words that must and must not decode, one or two single steps for each instruction with
results taken from spec/95_test_vectors.md (the vector's name stands in the comment), and a witness for the hypotheses of
every statement that has any. -/

namespace Sys2Proof.Tests

open Sys2Proof.Machine

/-! ### The well-formedness check refuses one word of each gap of the opcode space (R79, R80) -/

theorem test_wellFormed_refuses_class0 : wellFormedWord 0x0123 = false := by decide
theorem test_wellFormed_refuses_class5 : wellFormedWord 0x5001 = false := by decide
theorem test_wellFormed_refuses_class8 : wellFormedWord 0x8128 = false := by decide
theorem test_wellFormed_refuses_class9 : wellFormedWord 0x9001 = false := by decide
theorem test_wellFormed_refuses_classE : wellFormedWord 0xE09F = false := by decide
theorem test_wellFormed_refuses_classF : wellFormedWord 0xF166 = false := by decide
theorem test_wellFormed_accepts_all_rows : opcodeTable.all (fun r => wellFormedWord r.pattern) = true := by decide

/-! ### Words written out from the encodings of R71 and R78, one for each constructor -/

theorem test_decode_cls : decodeTableWord 16 0x00E0 = some .cls := by decide
theorem test_decode_ret : decodeTableWord 16 0x00EE = some .ret := by decide
theorem test_decode_jp : decodeTableWord 16 0x1ABC = some (.jp 0xABC) := by decide
theorem test_decode_call : decodeTableWord 16 0x2210 = some (.call 0x210) := by decide
theorem test_decode_seImm : decodeTableWord 16 0x3E7F = some (.seImm 0xE 0x7F) := by decide
theorem test_decode_sneImm : decodeTableWord 16 0x4210 = some (.sneImm 2 0x10) := by decide
theorem test_decode_seReg : decodeTableWord 16 0x51F0 = some (.seReg 1 0xF) := by decide
theorem test_decode_ldImm : decodeTableWord 16 0x6A7B = some (.ldImm 0xA 0x7B) := by decide
theorem test_decode_addImm : decodeTableWord 16 0x70FF = some (.addImm 0 0xFF) := by decide
theorem test_decode_ldReg : decodeTableWord 16 0x8230 = some (.ldReg 2 3) := by decide
theorem test_decode_or : decodeTableWord 16 0x8121 = some (.or 1 2) := by decide
theorem test_decode_and : decodeTableWord 16 0x8122 = some (.and 1 2) := by decide
theorem test_decode_xor : decodeTableWord 16 0x8123 = some (.xor 1 2) := by decide
theorem test_decode_addReg : decodeTableWord 16 0x8F14 = some (.addReg 0xF 1) := by decide
theorem test_decode_sub : decodeTableWord 16 0x8015 = some (.sub 0 1) := by decide
theorem test_decode_shr : decodeTableWord 16 0x8456 = some (.shr 4 5) := by decide
theorem test_decode_subn : decodeTableWord 16 0x8017 = some (.subn 0 1) := by decide
theorem test_decode_shl : decodeTableWord 16 0x84AE = some (.shl 4 0xA) := by decide
theorem test_decode_sneReg : decodeTableWord 16 0x9120 = some (.sneReg 1 2) := by decide
theorem test_decode_ldI : decodeTableWord 16 0xA321 = some (.ldI 0x321) := by decide
theorem test_decode_jpV0 : decodeTableWord 16 0xB3FE = some (.jpV0 0x3FE) := by decide
theorem test_decode_rnd : decodeTableWord 16 0xC30F = some (.rnd 3 0x0F) := by decide
theorem test_decode_drw : decodeTableWord 16 0xD12F = some (.drw 1 2 0xF) := by decide
theorem test_decode_skp : decodeTableWord 16 0xE59E = some (.skp 5) := by decide
theorem test_decode_sknp : decodeTableWord 16 0xE5A1 = some (.sknp 5) := by decide
theorem test_decode_ldVxDt : decodeTableWord 16 0xF407 = some (.ldVxDt 4) := by decide
theorem test_decode_ldVxK : decodeTableWord 16 0xF10A = some (.ldVxK 1) := by decide
theorem test_decode_ldDtVx : decodeTableWord 16 0xF315 = some (.ldDtVx 3) := by decide
theorem test_decode_ldStVx : decodeTableWord 16 0xF318 = some (.ldStVx 3) := by decide
theorem test_decode_addIVx : decodeTableWord 16 0xFF1E = some (.addIVx 0xF) := by decide
theorem test_decode_ldFVx : decodeTableWord 16 0xFA29 = some (.ldFVx 0xA) := by decide
theorem test_decode_ldBVx : decodeTableWord 16 0xF033 = some (.ldBVx 0) := by decide
theorem test_decode_ldIVx : decodeTableWord 16 0xF155 = some (.ldIVx 1) := by decide
theorem test_decode_ldVxI : decodeTableWord 16 0xF265 = some (.ldVxI 2) := by decide

theorem test_decodeBytes_high_byte_first :
    decodeBytes [0x12, 0x34, 0xAB] = .ok (.jp 0x234, [0xAB]) := by decide
theorem test_decodeBytes_truncated : decodeBytes [0x12] = .error .truncated := by decide
theorem test_decodeBytes_unknown : decodeBytes [0x80, 0x08] = .error (.unknownOpcode 0x8008) := by decide

/-! ### Single steps -/

/-- The reset state with some registers set. -/
def withV (regs : List (Reg × Byte)) : State := regs.foldl (fun s r => writeV r.1 r.2 s) State.reset

/-- One step on an opcode placed at PC: what `f` shows of the next state, nothing on a fault. -/
def after {α : Type} (op : Word) (s : State) (f : State → α) : Option α :=
  match step (s.withFetchWord 16 op.toNat) with
  | .next t => some (f t)
  | .fault _ => none
  | .refused _ => none

/-- One step on an opcode placed at PC: its fault. -/
def faultOf (op : Word) (s : State) : Option Fault :=
  match step (s.withFetchWord 16 op.toNat) with
  | .next _ => none
  | .fault f => some f
  | .refused _ => none

/-- The fault record of these tests: PC 0x200. -/
def at200 (opcode : Word) (info : Nat) : FaultRecord := { pc := 0x200, opcode := opcode, info := info }

/-- Z1. -/
theorem test_cls_clears :
    after 0x00E0 { State.reset with fb := (Vector.replicate 32 0).set 31 0x8000000000000001 } (fun t => (t.fb, drawPort t, t.pc)) = some (Vector.replicate 32 0, true, 0x202) := by decide

/-- Z5. -/
theorem test_ret_pops :
    after 0x00EE { State.reset with sp := 16, stack := (Vector.replicate 16 0).set 15 0x31E } (fun t => (t.sp, t.pc, t.stack[15])) = some (15, 0x31E, 0x31E) := by decide

/-- Z4. -/
theorem test_ret_underflow : faultOf 0x00EE State.reset = some (.stackUnderflow (at200 0x00EE 0)) := by decide

/-- S2: an odd target is legal. -/
theorem test_jp_odd :
    after 0x1201 State.reset (fun t => t.pc) = some 0x201 := by decide

/-- C2. -/
theorem test_call_sixteenth :
    after 0x2400 { State.reset with sp := 15 } (fun t => (t.stack[15], t.sp, t.pc)) = some (0x202, 16, 0x400) := by decide

/-- C3. -/
theorem test_call_overflow : faultOf 0x2400 { State.reset with sp := 16 } = some (.stackOverflow (at200 0x2400 16)) := by decide

/-- S6. -/
theorem test_seImm_skips :
    after 0x3210 (withV [(2, 0x10)]) (fun t => t.pc) = some 0x204 := by decide

/-- S5: the skip leaves PC past memory without a fault. -/
theorem test_seImm_at_the_end :
    after 0x3000 { State.reset with pc := 0xFFC } (fun t => t.pc) = some 0x1000 := by decide

/-- S8. -/
theorem test_sneImm_skips :
    after 0x4210 (withV [(2, 0x11)]) (fun t => t.pc) = some 0x204 := by decide

/-- S9. -/
theorem test_sneImm_stays :
    after 0x4210 (withV [(2, 0x10)]) (fun t => t.pc) = some 0x202 := by decide

/-- S10, at 0x200. -/
theorem test_seReg_skips :
    after 0x5120 (withV [(1, 0x33), (2, 0x33)]) (fun t => t.pc) = some 0x204 := by decide

/-- S11. -/
theorem test_seReg_stays :
    after 0x5120 (withV [(1, 1), (2, 2)]) (fun t => t.pc) = some 0x202 := by decide

/-- L1. -/
theorem test_ldImm_loads :
    after 0x6A7B State.reset (fun t => (readV t 0xA, t.pc)) = some (0x7B, 0x202) := by decide

/-- L2. -/
theorem test_addImm_wraps_without_flag :
    after 0x7002 (withV [(0, 0xFF), (0xF, 0x55)]) (fun t => (readV t 0, readV t 0xF)) = some (0x01, 0x55) := by decide

/-- A1. -/
theorem test_ldReg_copies :
    after 0x8230 (withV [(3, 0x42)]) (fun t => readV t 2) = some 0x42 := by decide

/-- A2. -/
theorem test_or_keeps_vf :
    after 0x8121 (withV [(1, 0xF0), (2, 0x0F), (0xF, 7)]) (fun t => (readV t 1, readV t 0xF)) = some (0xFF, 7) := by decide

/-- A3. -/
theorem test_and_masks :
    after 0x8122 (withV [(1, 0xF0), (2, 0x3C)]) (fun t => readV t 1) = some 0x30 := by decide

/-- A4. -/
theorem test_xor_mixes :
    after 0x8123 (withV [(1, 0xF0), (2, 0x3C)]) (fun t => readV t 1) = some 0xCC := by decide

/-- A6. -/
theorem test_addReg_no_carry_at_255 :
    after 0x8014 (withV [(0, 0xFE), (1, 1)]) (fun t => (readV t 0, readV t 0xF)) = some (0xFF, 0) := by decide

/-- A19. -/
theorem test_addReg_sum_wins_in_vf :
    after 0x8F14 (withV [(0xF, 0xFF), (1, 2)]) (fun t => readV t 0xF) = some 0x01 := by decide

/-- E3. -/
theorem test_sub_borrow :
    after 0x8015 (withV [(0, 5), (1, 0xA)]) (fun t => (readV t 0, readV t 0xF)) = some (0xFB, 0) := by decide

/-- A9. -/
theorem test_sub_equal_clears_vf :
    after 0x8015 (withV [(0, 7), (1, 7), (0xF, 9)]) (fun t => (readV t 0, readV t 0xF)) = some (0, 0) := by decide

/-- A13. -/
theorem test_shr_ignores_vy :
    after 0x8456 (withV [(4, 4), (5, 0xFF)]) (fun t => (readV t 4, readV t 0xF)) = some (2, 0) := by decide

/-- A21. -/
theorem test_shr_in_vf :
    after 0x8F16 (withV [(0xF, 5)]) (fun t => readV t 0xF) = some 2 := by decide

/-- A14. -/
theorem test_subn_greater :
    after 0x8017 (withV [(0, 5), (1, 0xA)]) (fun t => (readV t 0, readV t 0xF)) = some (5, 1) := by decide

/-- A16. -/
theorem test_subn_borrow :
    after 0x8017 (withV [(0, 0xA), (1, 5)]) (fun t => (readV t 0, readV t 0xF)) = some (0xFB, 0) := by decide

/-- A17. -/
theorem test_shl_out :
    after 0x840E (withV [(4, 0x81)]) (fun t => (readV t 4, readV t 0xF)) = some (2, 1) := by decide

/-- M1. -/
theorem test_sneReg_skips :
    after 0x9120 (withV [(1, 1), (2, 2)]) (fun t => t.pc) = some 0x204 := by decide

/-- M4. -/
theorem test_ldI_loads :
    after 0xA300 State.reset (fun t => t.i) = some 0x300 := by decide

/-- M5. -/
theorem test_jpV0_jumps :
    after 0xB300 (withV [(0, 4)]) (fun t => t.pc) = some 0x304 := by decide

/-- M8. -/
theorem test_jpV0_past_memory : faultOf 0xBFFF (withV [(0, 0xFF)]) = some (.addressOutOfRange (at200 0xBFFF 0x10FE)) := by decide

/-- M10: kk = 0 gives 0 whatever the draw; one draw is taken. -/
theorem test_rnd_zero_mask :
    after 0xC300 (withV [(3, 9)]) (fun t => t.draws) = some 1 := by decide

/-- M9, with the draw left free. -/
theorem test_rnd_masks : after 0xC30F State.reset (fun t => readV t 3) = some (Config.randomByte 0 &&& 0x0F) := rfl

/-- D6. -/
theorem test_drw_wraps_column_and_row :
    after 0xD011 { withV [(0, 63), (1, 31)] with i := 0x300, mem := [(0x300, 0xC0)] } (fun t => (pixel t.fb 63 31, pixel t.fb 0 31, pixel t.fb 62 31, readV t 0xF, drawPort t)) = some (true, true, false, 0, true) := by decide

/-- D4. -/
theorem test_drw_collides :
    after 0xD011 { State.reset with i := 0x300, mem := [(0x300, 0x80)], fb := (Vector.replicate 32 0).set 0 0x21 } (fun t => (t.fb[0], readV t 0xF)) = some (0x20, 1) := by decide

/-- K1, at 0x200. -/
theorem test_skp_skips :
    after 0xE59E { withV [(5, 0xA)] with key := (Vector.replicate 16 false).set 0xA true } (fun t => t.pc) = some 0x204 := by decide

/-- K5. -/
theorem test_skp_index_fault : faultOf 0xE59E (withV [(5, 0x10)]) = some (.stateFault (at200 0xE59E 0x10)) := by decide

/-- K3, at 0x200. -/
theorem test_sknp_skips :
    after 0xE5A1 (withV [(5, 0xA)]) (fun t => t.pc) = some 0x204 := by decide

/-- K6. -/
theorem test_sknp_index_fault : faultOf 0xE5A1 (withV [(5, 0xFF)]) = some (.stateFault (at200 0xE5A1 0xFF)) := by decide

/-- F1. -/
theorem test_ldVxDt_before_decay :
    after 0xF407 { State.reset with dt := 5 } (fun t => (readV t 4, t.dt)) = some (5, 4) := by decide

/-- F3. -/
theorem test_ldVxK_blocks :
    after 0xF10A { State.reset with dt := 3, st := 2 } (fun t => (t.result, t.pc, t.dt, t.st, drawPort t)) = some (.blocked, 0x200, 3, 2, false) := by decide

/-- F4. -/
theorem test_ldVxK_highest :
    after 0xF10A { State.reset with dt := 3, st := 2, key := ((Vector.replicate 16 false).set 5 true).set 9 true } (fun t => (readV t 1, t.pc, t.dt, t.st)) = some (9, 0x202, 2, 1) := by decide

/-- F7. -/
theorem test_ldDtVx_decays :
    after 0xF315 (withV [(3, 5)]) (fun t => t.dt) = some 4 := by decide

/-- F10. -/
theorem test_ldStVx_sounds :
    after 0xF318 (withV [(3, 3)]) (fun t => (t.st, soundOn t)) = some (2, true) := by decide

/-- F16. -/
theorem test_addIVx_wraps :
    after 0xFF1E { withV [(0xF, 0x20)] with i := 0xFF0 } (fun t => (t.i, readV t 0xF)) = some (0x010, 1) := by decide

/-- F14. -/
theorem test_addIVx_faults_under_parameter : faultOf 0xF21E { withV [(2, 1)] with i := 0xFFF, fx1eOverflow := .fault } = some (.addressOutOfRange (at200 0xF21E 0x1000)) := by decide

/-- F19. -/
theorem test_ldFVx_no_mask :
    after 0xFA29 (withV [(0xA, 0xFF)]) (fun t => t.i) = some 0x4FB := by decide

/-- F23. -/
theorem test_ldBVx_at_the_top :
    after 0xF033 { withV [(0, 123)] with i := 0xFFD } (fun t => memReadList t.mem 0xFFD 3) = some [1, 2, 3] := by decide

/-- F24. -/
theorem test_ldBVx_past_memory : faultOf 0xF033 { withV [(0, 123)] with i := 0xFFE } = some (.addressOutOfRange (at200 0xF033 0x1000)) := by decide

/-- F25. -/
theorem test_ldIVx_stores :
    after 0xF155 { withV [(0, 1), (1, 2), (2, 9)] with i := 0x300 } (fun t => (memReadList t.mem 0x300 3, t.i)) = some ([1, 2, 0], 0x300) := by decide

/-- F26. -/
theorem test_ldIVx_last_byte :
    after 0xFF55 { withV [(0, 0x11), (0xF, 0xEE)] with i := 0xFF0 } (fun t => (memRead t.mem 0xFF0, memRead t.mem 0xFFF)) = some (0x11, 0xEE) := by decide

/-- F28. -/
theorem test_ldVxI_loads :
    after 0xF265 { withV [(3, 0x44)] with i := 0x300, mem := [(0x300, 1), (0x301, 2), (0x302, 3)] } (fun t => (readV t 0, readV t 1, readV t 2, readV t 3, t.i)) = some (1, 2, 3, 0x44, 0x300) := by decide

/-- F30. -/
theorem test_ldVxI_past_memory : faultOf 0xF165 { State.reset with i := 0xFFF } = some (.addressOutOfRange (at200 0xF165 0x1000)) := by decide

/-- X2: the fetch at 0xFFF. -/
theorem test_fetch_fault : faultOf 0x1200 { State.reset with pc := 0xFFF } =
    some (.addressOutOfRange { pc := 0xFFF, opcode := 0, info := 0x1000 }) := by decide

/-- X1: the highest legal fetch. -/
theorem test_fetch_at_the_top :
    after 0x1200 { State.reset with pc := 0xFFE } (fun t => t.pc) = some 0x200 := by decide

/-- E9. -/
theorem test_unknown_opcode : faultOf 0x5001 State.reset = some (.unknownOpcode (at200 0x5001 0)) := by decide

/-- D14: the digit 0 of the conventional font, drawn at (10, 3). -/
theorem test_drw_digit : after 0xD125 { withV [(1, 10), (2, 3)] with mem := memWriteList [] 0 (Config.conventionalFont.take 5) }
    (fun t => ((List.range 5).map fun k => t.fb[3 + k]!)) = some [0x3C00, 0x2400, 0x2400, 0x2400, 0x3C00] := by decide

/-- H1, H4, H5. -/
theorem test_host_writes : hostWrite (.sp 17) State.reset = .stateFault ∧ hostWrite (.key 16 true) State.reset = .stateFault ∧
    hostWrite (.pc 0x1000) State.reset = .done { State.reset with pc := 0x1000 } := by decide

/-- The ports of a fault: result 2, kind 3 (R38, R200). -/
theorem test_ports_of_a_fault : stepPorts State.reset (exec .ret State.reset) =
    some { result := 2, draw := false, soundOn := false,
           fault := some { kind := 3, pc := 0x200, opcode := 0x00EE, info := 0 } } := by decide

/-- H2, a memory value above 255 (log 7), and the two writes at the upper ends of their domains. -/
theorem test_host_write_values : hostWrite (.v 3 256) State.reset = .stateFault ∧ hostWrite (.mem 4096 0) State.reset = .stateFault ∧
    hostWrite (.mem 4095 256) State.reset = .stateFault ∧
    hostWrite (.mem 4095 255) State.reset = .done { State.reset with mem := [(4095, 255)] } := by decide

/-- R242: a run ends at the FIRST good end and its later steps change nothing. -/
theorem test_run_stops_at_the_good_end :
    runStatus 0x200 { State.reset.withFetchWord 16 0x1200 with dt := 9 } (fun _ => .step) 3 =
      runStatus 0x200 { State.reset.withFetchWord 16 0x1200 with dt := 9 } (fun _ => .step) 1 := by decide

/-- R242: a run ends badly at its first FAULT; an accessor write outside its domain is none (R204). -/
theorem test_run_ends_at_the_fault :
    runStatus 0x200 State.reset (fun k => if k = 0 then .write (.sp 17) else .step) 2 =
      .badEnd State.reset (.unknownOpcode (at200 0 0)) := by decide

/-- R242, R243: the observation of the self-jump at its own halt address, with a host that writes keys only. -/
theorem test_observation : Observation 0x200 (State.reset.withFetchWord 16 0x1200)
    (fun moves _ => ∀ k, moves k = .step ∨ ∃ j pressed, moves k = .write (.key j pressed)) (fun t => t.pc = 0x200) := by
  refine ⟨by unfold HaltAddress; decide, fun moves hk ha => ?_⟩
  obtain ⟨n, -, hn⟩ := hk 0
  have key_write (s : State) (j : Nat) (pressed : Bool) :
      (afterWrite (.key j pressed) s).mem = s.mem ∧ (afterWrite (.key j pressed) s).pc = s.pc := by
    unfold afterWrite hostWrite
    by_cases h : (HostWrite.key j pressed).inDomain = true
    · rw [if_pos h]; exact ⟨rfl, rfl⟩
    · rw [if_neg h]; exact ⟨rfl, rfl⟩
  have one_step (s : State) (hm : s.mem = [(0x200, 0x12)]) (hp : s.pc = 0x200) :
      ∃ t, afterStep 0x200 s = .goodEnd t ∧ t.pc = 0x200 := by
    have hs : step s = .next (commit false 0x200 s) := by
      rcases step_cases s with ⟨h, -⟩ | ⟨-, h, -⟩ | ⟨-, i, h, he⟩
      · rw [hp] at h; exact absurd h (by decide)
      · rw [hp, hm] at h; exact absurd h (by decide)
      · rw [hp, hm] at h
        injection (show some (Instr.jp 0x200) = some i from h) with h
        rw [he, ← h]; rfl
    exact ⟨_, by rw [afterStep, hs]; rfl, rfl⟩
  have inv : ∀ m, (∃ t, runStatus 0x200 (State.reset.withFetchWord 16 0x1200) moves m = .goodEnd t ∧ t.pc = 0x200) ∨
      ∃ s, runStatus 0x200 (State.reset.withFetchWord 16 0x1200) moves m = .running s ∧
        s.mem = [(0x200, 0x12)] ∧ s.pc = 0x200 := by
    intro m
    induction m with
    | zero => exact .inr ⟨_, rfl, by decide, by decide⟩
    | succ m ih =>
      rcases ih with ⟨t, ht, hp⟩ | ⟨s, hs, hm, hp⟩
      · exact .inl ⟨t, by rw [runStatus, ht]; rfl, hp⟩
      · rcases ha m with hmove | ⟨j, pressed, hmove⟩
        · obtain ⟨t, ht, hpt⟩ := one_step s hm hp
          exact .inl ⟨t, by rw [runStatus, hs, hmove]; exact ht, hpt⟩
        · exact .inr ⟨_, by rw [runStatus, hs, hmove]; rfl, (key_write s j pressed).1.trans hm,
            (key_write s j pressed).2.trans hp⟩
  rcases inv n with ⟨t, ht, hp⟩ | ⟨s, hs, hm, hp⟩
  · exact ⟨t, ⟨n, ht⟩, hp⟩
  · obtain ⟨t, ht, hpt⟩ := one_step s hm hp
    exact ⟨t, ⟨n + 1, by rw [runStatus, hs, hn]; exact ht⟩, hpt⟩

/-! ### A witness for the hypotheses of each statement that has any, at the ends of their ranges -/

/-- An opcode placed at an address, everything else as after reset. -/
def loaded (pc op : Word) : State := { State.reset with pc := pc }.withFetchWord 16 op.toNat

theorem witness_EncodeInvertsDecode : decode 0x8456 = some (.shr 4 5) := by decide

theorem witness_UnknownOpcodes_fetch_in_range :
    (loaded 0xFFE 0x00E0).pc.toNat ≤ 0xFFE ∧ opcodeAt (loaded 0xFFE 0x00E0).mem 0xFFE = 0x00E0 := by decide

theorem witness_UnknownOpcodes_both_ways : UnknownSpace 0x0FFF ∧ ¬ UnknownSpace 0x1000 := by
  unfold UnknownSpace
  decide

theorem witness_StepRunsTheDecodedInstruction :
    (loaded 0xFFE 0x1200).pc.toNat + 1 ≤ 0xFFF ∧
    decode (memRead (loaded 0xFFE 0x1200).mem 0xFFE ++ memRead (loaded 0xFFE 0x1200).mem 0xFFF) =
      some (.jp 0x200) := by decide

theorem witness_FetchPastMemoryFaults : 0xFFE < ({ State.reset with pc := 0xFFF } : State).pc.toNat := by decide

theorem witness_FetchPastMemoryFaults_after_a_step :
    (let s := loaded 0xFFE 0xE0A1
     s.pc.toNat ≤ 0xFFE ∧ decode (opcodeAt s.mem s.pc.toNat) = some (.sknp 0) ∧ pcAdvance (.sknp 0) s = some 4) ∧
    (let s := loaded 0xFFE 0x6000
     s.pc.toNat ≤ 0xFFE ∧ decode (opcodeAt s.mem s.pc.toNat) = some (.ldImm 0 0) ∧ pcAdvance (.ldImm 0 0) s = some 2) := by
  decide

theorem witness_ConstructionPlacesTheFont :
    Config.conventionalFont.length ≤ 4096 ∧ (List.replicate 4096 (0xFF : Byte)).length ≤ 4096 := by
  refine ⟨by decide, ?_⟩
  rw [List.length_replicate]

theorem witness_FaultsRecordPcAndOpcode : (faultOf 0x00EE State.reset).isSome = true := by decide

theorem witness_StepKeepsInvariant : Inv (loaded 0xFFE 0x00E0) ∧
    ∃ t, step (loaded 0xFFE 0x00E0) = .next t := by
  refine ⟨⟨by decide, by decide, by decide, by decide⟩, _, rfl⟩

theorem witness_OnlyClsAndDrwChangeTheFramebuffer :
    ∃ (i : Instr) (s t : State), exec i s = .next t ∧ i ≠ .cls ∧ ∀ x y n, i ≠ .drw x y n :=
  ⟨.jp 0, State.reset, _, rfl, nofun, nofun⟩

theorem witness_NoStepChangesKeypadOrParameter : ∃ t, step (loaded 0x200 0x00E0) = .next t := ⟨_, rfl⟩

theorem witness_OnlyCallWritesTheStack :
    ∃ (i : Instr) (s t : State), exec i s = .next t ∧ (∀ nnn, i ≠ .call nnn) ∧ i ≠ .ret :=
  ⟨.jp 0, State.reset, _, rfl, nofun, nofun⟩

theorem witness_OnlyIndexInstructionsWriteI :
    ∃ (i : Instr) (s t : State), exec i s = .next t ∧ (∀ nnn, i ≠ .ldI nnn) ∧ (∀ x, i ≠ .addIVx x) ∧
      ∀ x, i ≠ .ldFVx x :=
  ⟨.ldIVx 3, State.reset, _, rfl, nofun, nofun, nofun⟩

theorem witness_OnlyStoresChangeMemory :
    ∃ (i : Instr) (s t : State), exec i s = .next t ∧ (∀ x, i ≠ .ldBVx x) ∧ ∀ x, i ≠ .ldIVx x :=
  ⟨.ldVxI 3, State.reset, _, rfl, nofun, nofun⟩

theorem witness_OnlyRndDrawsRandomBytes :
    (∃ (s t : State) (x : Reg) (kk : Byte), exec (.rnd x kk) s = .next t) ∧
    ∃ (i : Instr) (s t : State), exec i s = .next t ∧ ∀ x kk, i ≠ .rnd x kk :=
  ⟨⟨State.reset, _, 0, 0, rfl⟩, .cls, State.reset, _, rfl, nofun⟩

theorem witness_OnlyDestinationRegistersChange :
    ∃ (i : Instr) (s t : State) (r : Reg), exec i s = .next t ∧ ¬ writesRegister i r :=
  ⟨.ldVxI 3, State.reset, _, 4, rfl, by unfold writesRegister; decide⟩

theorem witness_TimersDecayOnCompletion :
    (∃ (i : Instr) (s t : State) (draw : Bool), exec i s = .next t ∧ t.result = .completed draw) ∧
    ∃ (i : Instr) (s t : State), exec i s = .next t ∧ t.result = .blocked :=
  ⟨⟨.ldDtVx 0, State.reset, _, false, rfl, rfl⟩, .ldVxK 0, State.reset, _, rfl, rfl⟩

theorem witness_DrawFlagMarksClsAndDrw :
    (∃ (i : Instr) (s t : State), exec i s = .next t) ∧
    ∃ (s : State) (f : Fault) (p : StepPorts), stepPorts s (.fault f) = some p :=
  ⟨⟨.cls, State.reset, _, rfl⟩, State.reset, .stackUnderflow (at200 0 0), _, rfl⟩

theorem witness_RetPopsTheReturnAddress :
    0 < ({ State.reset with sp := 1 } : State).sp.val ∧ 0 < ({ State.reset with sp := 16 } : State).sp.val := by decide

theorem witness_RetOnEmptyStackFaults : State.reset.sp.val = 0 := rfl

theorem witness_CallPushesTheReturnAddress :
    State.reset.sp.val < 16 ∧ ({ State.reset with sp := 15 } : State).sp.val < 16 := by decide

theorem witness_CallOnFullStackFaults : ({ State.reset with sp := 16 } : State).sp.val = 16 := rfl

theorem witness_CallThenRetContinuesAfterTheCall : ({ State.reset with sp := 15 } : State).sp.val < 16 := by decide

theorem witness_RegisterSkips_unknown_words :
    (0x500F : Word) &&& 0xF000 = 0x5000 ∧ (0x500F : Word) &&& 0x000F ≠ 0 ∧
    (0x9001 : Word) &&& 0xF000 = 0x9000 ∧ (0x9001 : Word) &&& 0x000F ≠ 0 := by decide

theorem witness_FlagInAnotherRegister : (0xE : Reg) ≠ 0xF := by decide

theorem witness_VfAsDestinationKeepsTheResult : (1 : Reg) ≠ 0xF := by decide

theorem witness_IndexedJumpOrFault :
    (0xFFF : Addr).toNat + (readV State.reset 0).toNat ≤ 0xFFF ∧
    0xFFF < (0xFFF : Addr).toNat + (readV (withV [(0, 1)]) 0).toNat := by decide

theorem witness_DrawXorsTheSprite :
    ((0 : Nibble).toNat = 0) ∧ ({ State.reset with i := 0xFF1 } : State).i.toNat + (0xF : Nibble).toNat ≤ 0x1000 := by
  decide

theorem witness_DrawTwiceRestoresTheFramebuffer :
    (1 : Reg) ≠ 0xF ∧ (2 : Reg) ≠ 0xF ∧
    ({ State.reset with i := 0xFF1 } : State).i.toNat + (0xF : Nibble).toNat ≤ 0x1000 := by decide

theorem witness_KeySkips : (readV (withV [(5, 0xF)]) 5).toNat = (15 : Fin 16).val := by decide

theorem witness_KeyIndexAboveFFaults : 0x0F < (readV (withV [(5, 0x10)]) 5).toNat := by decide

/-- The hypotheses of the two countdowns: the timer is set by the first of two completed instructions only. -/
theorem witness_SetTimersCountDown :
    (∃ (instrs : Nat → Instr) (run : Nat → State), instrs 0 = .ldDtVx 3 ∧ (∀ k r, instrs (k + 1) ≠ .ldDtVx r) ∧
      ∀ k, k ≤ 1 → exec (instrs k) (run k) = .next (run (k + 1)) ∧
        ∃ draw, (run (k + 1)).result = .completed draw) ∧
    ∃ (instrs : Nat → Instr) (run : Nat → State), instrs 0 = .ldStVx 3 ∧ (∀ k r, instrs (k + 1) ≠ .ldStVx r) ∧
      ∀ k, k ≤ 1 → exec (instrs k) (run k) = .next (run (k + 1)) ∧
        ∃ draw, (run (k + 1)).result = .completed draw := by
  refine ⟨⟨fun k => if k = 0 then .ldDtVx 3 else .jp 0x202, fun k => match k with
      | 0 => withV [(3, 5)]
      | 1 => commit false 0x202 { withV [(3, 5)] with dt := 5 }
      | _ => commit false 0x202 (commit false 0x202 { withV [(3, 5)] with dt := 5 }), rfl, by simp, ?_⟩,
    ⟨fun k => if k = 0 then .ldStVx 3 else .jp 0x202, fun k => match k with
      | 0 => withV [(3, 5)]
      | 1 => commit false 0x202 { withV [(3, 5)] with st := 5 }
      | _ => commit false 0x202 (commit false 0x202 { withV [(3, 5)] with st := 5 }), rfl, by simp, ?_⟩⟩
  · intro k hk
    match k, hk with
    | 0, _ => exact ⟨rfl, false, rfl⟩
    | 1, _ => exact ⟨rfl, false, rfl⟩
  · intro k hk
    match k, hk with
    | 0, _ => exact ⟨rfl, false, rfl⟩
    | 1, _ => exact ⟨rfl, false, rfl⟩

theorem witness_WaitForKeyTakesTheHighestKey :
    (∀ k : Fin 16, State.reset.key[k] = false) ∧
    (let s := { State.reset with key := (Vector.replicate 16 false).set 9 true }
     s.key[(9 : Fin 16)] = true ∧ ∀ j : Fin 16, 9 < j → s.key[j] = false) := by decide

theorem witness_AddIndexWraps : State.reset.fx1eOverflow = .wrap := rfl

theorem witness_AddIndexFaultsUnderTheOtherParameter :
    (let s := { withV [(2, 0xF)] with i := 0xFF0, fx1eOverflow := .fault }
     s.fx1eOverflow = .fault ∧ s.i.toNat + (readV s 2).toNat ≤ 0xFFF) ∧
    (let s := { withV [(2, 1)] with i := 0xFFF, fx1eOverflow := .fault }
     s.fx1eOverflow = .fault ∧ 0xFFF < s.i.toNat + (readV s 2).toNat) := by decide

theorem witness_DecimalDigitsAreStored :
    let s := { State.reset with i := 0xFFD, mem := [(0xFFD, 9)] }
    Memory.wf s.mem ∧ s.i.toNat + 2 ≤ 0xFFF := by decide

theorem witness_BlockTransfers :
    let s := { State.reset with i := 0xFF0, mem := [(0xFFF, 9)] }
    Memory.wf s.mem ∧ s.i.toNat + (0xF : Reg).val ≤ 0xFFF := by decide

theorem witness_AccessPastMemoryFaults :
    (1 ≤ (2 : Nibble).toNat ∧ 0xFFF < ({ State.reset with i := 0xFFF } : State).i.toNat + (2 : Nibble).toNat - 1) ∧
    0xFFF < ({ State.reset with i := 0xFFE } : State).i.toNat + 2 ∧
    0xFFF < ({ State.reset with i := 0xFF1 } : State).i.toNat + (0xF : Reg).val := by decide

theorem witness_HostWritesAreChecked :
    (255 < 256 ∧ 0xFFFF < 0x10000 ∧ 16 < 17 ∧ 4095 < 4096 ∧ 15 < 16) ∧
    (255 ≤ 255 ∧ 0xFFFF ≤ 0xFFFF ∧ 16 ≤ 16 ∧ 4095 ≤ 4095) ∧ Memory.wf [(0xFFF, 9)] := by decide

theorem witness_HostWritesKeepTheMemoryForm :
    Memory.wf State.reset.mem ∧ ∃ t, hostWrite (.mem 4095 255) State.reset = .done t :=
  ⟨by decide, _, rfl⟩

theorem witness_RomLoadsAtTheProgramStart :
    Memory.wf State.reset.mem ∧ (List.replicate 3584 (1 : Byte)).length ≤ 3584 ∧
    3584 < (List.replicate 3585 (1 : Byte)).length := by
  rw [List.length_replicate, List.length_replicate]
  decide

end Sys2Proof.Tests
end

/-! ## The state family: what a step can do, and what it leaves unchanged (spec/10_state.md) -/

namespace Sys2Proof.Machine

/-! ### One description of every completed instruction

`ownCheck`, `ownWrites`, `nextPc` and `setsDrawFlag` name the four parts of an instruction's meaning, and `exec_cases`
ties them to `exec` once.  Each frame statement below is then a fact about `ownWrites`. -/

/-- The instruction's own check (R85), for Fx0A that some key is pressed (R181). -/
def ownCheck (i : Instr) (s : State) : Prop :=
  match i with
  | .ret => s.sp.val ≠ 0
  | .call _ => s.sp.val ≠ 16
  | .jpV0 nnn => indexedTarget s nnn ≤ Config.addrMax
  | .drw _ _ n => inRange (indexAddr s) n.toNat = true
  | .skp x | .sknp x => keyInDomain (readV s x) = true
  | .ldVxK _ => highestKey s ≠ none
  | .addIVx x => s.fx1eOverflow = .wrap ∨ indexOverflow (indexSum s x) = false
  | .ldBVx _ => inRange (indexAddr s) 3 = true
  | .ldIVx x | .ldVxI x => inRange (indexAddr s) (x.val + 1) = true
  | _ => True

/-- The state with the instruction's own writes, before PC, the timers' decay and the outcome are committed (R84). -/
def ownWrites (i : Instr) (s : State) : State :=
  match i with
  | .cls => { s with fb := Vector.replicate 32 0 }
  | .ret => { s with sp := Fin.ofNat 17 (s.sp.val - 1) }
  | .call _ => { s with stack := s.stack.setIfInBounds s.sp.val (s.pc + 2), sp := Fin.ofNat 17 (s.sp.val + 1) }
  | .ldImm x kk => writeV x kk s
  | .addImm x kk => writeV x (readV s x + kk) s
  | .ldReg x y => writeV x (readV s y) s
  | .or x y => writeV x (readV s x ||| readV s y) s
  | .and x y => writeV x (readV s x &&& readV s y) s
  | .xor x y => writeV x (readV s x ^^^ readV s y) s
  | .addReg x y => writeFlagThenV x (carryFlag (readV s x) (readV s y)) (readV s x + readV s y) s
  | .sub x y => writeFlagThenV x (greaterFlag (readV s x) (readV s y)) (readV s x - readV s y) s
  | .shr x _ => writeFlagThenV x (lowBitFlag (readV s x)) (readV s x >>> 1) s
  | .subn x y => writeFlagThenV x (greaterFlag (readV s y) (readV s x)) (readV s y - readV s x) s
  | .shl x _ => writeFlagThenV x (highBitFlag (readV s x)) (readV s x <<< 1) s
  | .ldI nnn => { s with i := zextAddr nnn }
  | .rnd x kk => writeV x (Config.randomByte s.draws &&& kk) { s with draws := s.draws + 1 }
  | .drw x y n => writeFlag (drawnSprite x y n s).2 { s with fb := (drawnSprite x y n s).1 }
  | .ldVxDt x => writeV x s.dt s
  | .ldVxK x => writeV x (BitVec.ofNat 8 ((highestKey s).getD 0)) s
  | .ldDtVx x => { s with dt := readV s x }
  | .ldStVx x => { s with st := readV s x }
  | .addIVx x =>
    { writeFlag (indexOverflow (indexSum s x)) s with i := BitVec.ofNat 16 (indexSum s x % Config.memSize) }
  | .ldFVx x => { s with i := digitAddr (readV s x) }
  | .ldBVx x => storeBytes (indexAddr s) (decimalDigits (readV s x)) s
  | .ldIVx x => storeBytes (indexAddr s) (regBytes s x) s
  | .ldVxI x => { s with v := setRegs s.v 0 (memReadList s.mem (indexAddr s) (x.val + 1)) }
  | .jp _ | .seImm _ _ | .sneImm _ _ | .seReg _ _ | .sneReg _ _ | .jpV0 _ | .skp _ | .sknp _ => s

/-- A conditional skip's target (R87). -/
def skipTarget (condition : Bool) (s : State) : Word := s.pc + if condition then 4 else 2

/-- The PC a completed instruction commits (R86). -/
def nextPc (i : Instr) (s : State) : Word :=
  match i with
  | .ret => s.stack.getD (s.sp.val - 1) 0
  | .jp nnn | .call nnn => zextAddr nnn
  | .jpV0 nnn => BitVec.ofNat 16 (indexedTarget s nnn)
  | .seImm x kk => skipTarget (readV s x == kk) s
  | .sneImm x kk => skipTarget (readV s x != kk) s
  | .seReg x y => skipTarget (readV s x == readV s y) s
  | .sneReg x y => skipTarget (readV s x != readV s y) s
  | .skp x => skipTarget (keyPressed s (readV s x).toNat) s
  | .sknp x => skipTarget (!keyPressed s (readV s x).toNat) s
  | _ => s.pc + 2

/-- The instructions that set the draw flag (R35, D15). -/
def setsDrawFlag (i : Instr) : Bool :=
  match i with
  | .cls | .drw _ _ _ => true
  | _ => false

/-- The state a completed instruction answers. -/
def completedState (i : Instr) (s : State) : State := commit (setsDrawFlag i) (nextPc i s) (ownWrites i s)

/-- An `Fx1E` sum inside memory is its own remainder modulo the memory size. -/
theorem mod_memSize_of_not_indexOverflow {sum : Nat} (h : indexOverflow sum = false) :
    sum % Config.memSize = sum := by
  have hle : ¬ 4095 < sum := of_decide_eq_false h
  exact Nat.mod_eq_of_lt (show sum < 4096 by omega)

/-- Fx1E: completed under WRAP, or under FAULT without overflow; a fault otherwise (R184). -/
theorem exec_addIVx_cases (x : Reg) (s : State) :
    (ownCheck (.addIVx x) s ∧ exec (.addIVx x) s = .next (completedState (.addIVx x) s)) ∨
    ∃ f, exec (.addIVx x) s = .fault f := by
  cases hp : s.fx1eOverflow with
  | wrap => exact .inl ⟨.inl hp, by simp only [exec, execAddIVx, hp]; rfl⟩
  | fault =>
    cases ho : indexOverflow (indexSum s x) with
    | true => exact .inr ⟨_, by simp only [exec, execAddIVx, hp, ho]; rfl⟩
    | false =>
      refine .inl ⟨.inr ho, ?_⟩
      simp only [exec, execAddIVx, completedState, ownWrites, hp, ho, mod_memSize_of_not_indexOverflow ho]
      rfl

/-- Fx0A: completed with the highest key, BLOCKED without one (R181). -/
theorem exec_ldVxK_cases (x : Reg) (s : State) :
    (ownCheck (.ldVxK x) s ∧ exec (.ldVxK x) s = .next (completedState (.ldVxK x) s)) ∨
    (highestKey s = none ∧ exec (.ldVxK x) s = .next { s with result := .blocked }) := by
  cases hk : highestKey s with
  | none => exact .inr ⟨rfl, by simp only [exec, execLdVxK, hk]; rfl⟩
  | some k =>
    refine .inl ⟨by simp [ownCheck, hk], ?_⟩
    simp only [exec, execLdVxK, completedState, ownWrites, hk]
    rfl

/-- A meaning guarded by its check completes or faults. -/
theorem ite_next_cases {p : Prop} {_ : Decidable p} {t : State} {f : Fault} :
    (p ∧ (if p then .next t else .fault f : Result) = .next t) ∨
    ∃ g, (if p then .next t else .fault f : Result) = .fault g := by
  by_cases h : p
  · exact .inl ⟨h, if_pos h⟩
  · exact .inr ⟨f, if_neg h⟩

/-- A meaning whose fault stands first completes or faults. -/
theorem ite_fault_cases {p : Prop} {_ : Decidable p} {t : State} {f : Fault} :
    (¬ p ∧ (if p then .fault f else .next t : Result) = .next t) ∨
    ∃ g, (if p then .fault f else .next t : Result) = .fault g := by
  by_cases h : p
  · exact .inr ⟨f, if_pos h⟩
  · exact .inl ⟨h, if_neg h⟩

/-- Everything an instruction can do: complete with its own writes, block in Fx0A with no key, or fault (R34). -/
theorem exec_cases (i : Instr) (s : State) :
    (ownCheck i s ∧ exec i s = .next (completedState i s)) ∨
    (∃ x, i = .ldVxK x ∧ highestKey s = none ∧ exec i s = .next { s with result := .blocked }) ∨
    ∃ f, exec i s = .fault f := by
  cases i with
  | ldVxK x =>
    rcases exec_ldVxK_cases x s with h | h
    · exact .inl h
    · exact .inr (.inl ⟨x, rfl, h⟩)
  | addIVx x => exact (exec_addIVx_cases x s).imp_right .inr
  | ret | call => exact ite_fault_cases.imp_right .inr
  | jpV0 | drw | skp | sknp | ldBVx | ldIVx | ldVxI => exact ite_next_cases.imp_right .inr
  | _ => exact .inl ⟨trivial, rfl⟩

/-- The two ways an instruction answers a next state. -/
theorem exec_next_cases {i : Instr} {s t : State} (h : exec i s = .next t) :
    (ownCheck i s ∧ t = completedState i s) ∨ (∃ x, i = .ldVxK x ∧ t = { s with result := .blocked }) := by
  rcases exec_cases i s with ⟨hc, he⟩ | ⟨x, hi, -, he⟩ | ⟨f, he⟩
  · exact .inl ⟨hc, by simpa using h.symm.trans he⟩
  · exact .inr ⟨x, hi, by simpa using h.symm.trans he⟩
  · cases h.symm.trans he

/-- A step that answers a next state executed the instruction at a PC the fetch accepts. -/
theorem exec_of_step_next {s t : State} (h : step s = .next t) :
    s.pc.toNat ≤ 0xFFE ∧ ∃ i, exec i s = .next t := by
  rcases step_cases s with ⟨-, hs⟩ | ⟨-, -, hs⟩ | ⟨hpc, i, -, hs⟩
  · cases h.symm.trans hs
  · cases h.symm.trans hs
  · exact ⟨hpc, i, hs.symm.trans h⟩

/-! ### What the own writes leave unchanged -/

@[simp] theorem ownWrites_key (i : Instr) (s : State) : (ownWrites i s).key = s.key := by
  cases i <;> rfl

@[simp] theorem ownWrites_fx1eOverflow (i : Instr) (s : State) :
    (ownWrites i s).fx1eOverflow = s.fx1eOverflow := by
  cases i <;> rfl

theorem ownWrites_fb {i : Instr} (s : State) (hcls : i ≠ .cls) (hdrw : ∀ x y n, i ≠ .drw x y n) :
    (ownWrites i s).fb = s.fb := by
  cases i with
  | cls => exact absurd rfl hcls
  | drw x y n => exact absurd rfl (hdrw x y n)
  | _ => rfl

theorem ownWrites_stack {i : Instr} (s : State) (hcall : ∀ nnn, i ≠ .call nnn) :
    (ownWrites i s).stack = s.stack := by
  cases i with
  | call nnn => exact absurd rfl (hcall nnn)
  | _ => rfl

theorem ownWrites_sp {i : Instr} (s : State) (hcall : ∀ nnn, i ≠ .call nnn) (hret : i ≠ .ret) :
    (ownWrites i s).sp = s.sp := by
  cases i with
  | call nnn => exact absurd rfl (hcall nnn)
  | ret => exact absurd rfl hret
  | _ => rfl

theorem ownWrites_i {i : Instr} (s : State) (hldI : ∀ nnn, i ≠ .ldI nnn) (hadd : ∀ x, i ≠ .addIVx x)
    (hldF : ∀ x, i ≠ .ldFVx x) : (ownWrites i s).i = s.i := by
  cases i with
  | ldI nnn => exact absurd rfl (hldI nnn)
  | addIVx x => exact absurd rfl (hadd x)
  | ldFVx x => exact absurd rfl (hldF x)
  | _ => rfl

/-- Loading bytes into V0 to Vx leaves the registers above x (R188). -/
theorem getElem_setRegs_of_lt {v : Vector Byte 16} {bs : List Byte} {x r : Reg} (hlen : bs.length = x.val + 1)
    (hr : ¬ r.val ≤ x.val) : (setRegs v 0 bs)[r] = v[r] := by
  have h := getElem_setRegs v 0 bs r.val r.isLt
  rwa [dif_neg (by omega)] at h

/-- A flag-writing result leaves every register but Vx and VF. -/
theorem readV_writeFlagThenV_of_ne {x r : Reg} (flag : Bool) (b : Byte) (s : State) (h : ¬ (r = x ∨ r = 0xF)) :
    readV (writeFlagThenV x flag b s) r = readV s r := by
  obtain ⟨hx, hf⟩ := not_or.1 h
  rw [writeFlagThenV_eq, readV_writeV_of_ne _ _ (Ne.symm hx)]
  exact readV_writeV_of_ne _ _ (Ne.symm hf)

/-- The own writes leave every register R21 does not name as a destination. -/
theorem readV_ownWrites {i : Instr} {r : Reg} (s : State) (h : ¬ writesRegister i r) :
    readV (ownWrites i s) r = readV s r := by
  cases i with
  | ldImm | addImm | ldReg | or | and | xor | rnd | ldVxDt | ldVxK => exact readV_writeV_of_ne _ _ (Ne.symm h)
  | addReg | sub | shr | subn | shl => exact readV_writeFlagThenV_of_ne _ _ _ h
  | drw | addIVx => exact readV_writeV_of_ne _ _ (Ne.symm h)
  | ldVxI x => exact getElem_setRegs_of_lt (length_memReadList _ _ _) h
  | _ => rfl

theorem setsDrawFlag_iff (i : Instr) : setsDrawFlag i = true ↔ i = .cls ∨ ∃ x y n, i = .drw x y n := by
  cases i <;> simp [setsDrawFlag]

theorem drawPort_commit (draw : Bool) (target : Word) (s : State) : drawPort (commit draw target s) = draw := by
  cases draw <;> rfl

/-! ### The invariant -/

/-- Writing a checked range keeps memory canonical; the empty range of R56 is no write. -/
theorem storeBytes_wf {a : Nat} {bs : List Byte} {s : State} (hs : Memory.wf s.mem)
    (hr : inRange a bs.length = true) : Memory.wf (storeBytes a bs s).mem :=
  loadImage_wf (base := a) (image := bs) hs (by rw [loadImage, if_pos hr])

/-- The own writes of an instruction that passed its check keep memory canonical (R56). -/
theorem ownWrites_mem_wf {i : Instr} {s : State} (hs : Memory.wf s.mem) (hc : ownCheck i s) :
    Memory.wf (ownWrites i s).mem := by
  cases i with
  | ldBVx x => exact storeBytes_wf hs hc
  | ldIVx x => exact storeBytes_wf hs (by rw [length_regBytes]; exact hc)
  | _ => exact hs

theorem zextAddr_le (nnn : Addr) : (zextAddr nnn).toNat ≤ 0xFFF := by
  rw [zextAddr_toNat]
  exact Nat.le_of_lt_succ nnn.isLt

/-- The own writes keep I an address (R24). -/
theorem ownWrites_i_le {i : Instr} {s : State} (hs : s.i.toNat ≤ 0xFFF) : (ownWrites i s).i.toNat ≤ 0xFFF := by
  cases i with
  | ldI nnn => exact zextAddr_le nnn
  | addIVx x =>
    have hmod : indexSum s x % 4096 < 4096 := Nat.mod_lt _ (by decide)
    exact (Nat.mod_le _ _).trans (Nat.le_of_lt_succ hmod)
  | ldFVx x =>
    have hb := (readV s x).isLt
    have hd : (digitAddr (readV s x)).toNat ≤ 0xFFF := by rw [digitAddr_toNat]; omega
    exact hd
  | _ => exact hs

/-- An offset added to a PC the fetch accepts does not wrap. -/
theorem pc_add_toNat {pc d : Word} (hpc : pc.toNat ≤ 0xFFE) (hd : d.toNat ≤ 4) :
    (pc + d).toNat = pc.toNat + d.toNat := by
  rw [BitVec.toNat_add]
  exact Nat.mod_eq_of_lt (by omega)

/-- The own writes keep every stack entry a return address 2nnn can push (R86, R111). -/
theorem ownWrites_stack_le {i : Instr} {s : State} (hs : ∀ k : Fin 16, s.stack[k].toNat ≤ 0x1000)
    (hpc : s.pc.toNat ≤ 0xFFE) (k : Fin 16) : (ownWrites i s).stack[k].toNat ≤ 0x1000 := by
  cases i with
  | call nnn =>
    have hpush : (s.pc + 2).toNat ≤ 0x1000 := by
      rw [pc_add_toNat hpc (by decide)]
      exact Nat.add_le_add_right hpc 2
    have hk : (ownWrites (.call nnn) s).stack[k] = if s.sp.val = k.val then s.pc + 2 else s.stack[k] :=
      Vector.getElem_setIfInBounds k.isLt
    rw [hk]
    split
    · exact hpush
    · exact hs k
  | _ => exact hs k

theorem skipTarget_le {s : State} (condition : Bool) (hpc : s.pc.toNat ≤ 0xFFE) :
    (skipTarget condition s).toNat ≤ 0x1002 := by
  cases condition with
  | true =>
    have h : (s.pc + 4).toNat = s.pc.toNat + 4 := pc_add_toNat hpc (by decide)
    exact h.trans_le (Nat.add_le_add_right hpc 4)
  | false =>
    have h : (s.pc + 2).toNat = s.pc.toNat + 2 := pc_add_toNat hpc (by decide)
    exact h.trans_le ((Nat.add_le_add_right hpc 2).trans (by decide))

/-- The PC committed is at most 4 past the last address a fetch can have (R86, R87). -/
theorem nextPc_le {i : Instr} {s : State} (hstack : ∀ k : Fin 16, s.stack[k].toNat ≤ 0x1000)
    (hpc : s.pc.toNat ≤ 0xFFE) (hc : ownCheck i s) : (nextPc i s).toNat ≤ 0x1002 := by
  cases i with
  | ret =>
    have hk : s.sp.val - 1 < 16 := by omega
    have hpop : nextPc .ret s = s.stack[s.sp.val - 1] := vector_getD _ _ hk
    rw [hpop]
    exact (hstack ⟨_, hk⟩).trans (by decide)
  | jp nnn | call nnn => exact (zextAddr_le nnn).trans (by decide)
  | jpV0 nnn =>
    have hle : indexedTarget s nnn ≤ 0xFFF := hc
    exact (Nat.mod_le _ _).trans (hle.trans (by decide))
  | seImm | sneImm | seReg | sneReg | skp | sknp => exact skipTarget_le _ hpc
  | _ => exact skipTarget_le false hpc

/-- A completed instruction keeps the invariant, from any PC the fetch accepts. -/
theorem completedState_inv {i : Instr} {s : State} (hs : Inv s) (hpc : s.pc.toNat ≤ 0xFFE) (hc : ownCheck i s) :
    Inv (completedState i s) := by
  obtain ⟨hmem, hi, hstack, -⟩ := hs
  exact ⟨ownWrites_mem_wf hmem hc, ownWrites_i_le hi, ownWrites_stack_le hstack hpc, nextPc_le hstack hpc hc⟩

/-- Settles O13: the invariant holds after the own writes and the committed PC of every completed instruction, and a
BLOCKED step changes no field it names. -/
theorem stepKeepsInvariant : Obligations.StepKeepsInvariant := by
  intro s t hs h
  obtain ⟨hpc, i, he⟩ := exec_of_step_next h
  rcases exec_next_cases he with ⟨hc, rfl⟩ | ⟨x, -, rfl⟩
  · exact completedState_inv hs hpc hc
  · exact hs

/-! ### The outcomes and the frames -/

/-- No key is pressed when the keypad scan finds none (R181). -/
theorem key_eq_false_of_highestKey_none {s : State} (h : highestKey s = none) (k : Fin 16) : s.key[k] = false := by
  rcases highestKey_cases s with ⟨-, hk⟩ | ⟨j, hj, -⟩
  · rw [← keyPressed_eq]
    exact hk k k.isLt
  · cases h.symm.trans hj

/-- Settles O11, by the outcomes of the step and then of the instruction it executes. -/
theorem stepHasThreeOutcomes : Obligations.StepHasThreeOutcomes := by
  intro s
  rcases step_cases s with ⟨-, hs⟩ | ⟨-, -, hs⟩ | ⟨-, i, hd, hs⟩
  · exact .inr (.inr ⟨_, hs⟩)
  · exact .inr (.inr ⟨_, hs⟩)
  · rcases exec_cases i s with ⟨-, he⟩ | ⟨x, rfl, hk, he⟩ | ⟨f, he⟩
    · exact .inl ⟨_, _, hs.trans he, rfl⟩
    · exact .inr (.inl ⟨hs.trans he, ⟨x, hd⟩, key_eq_false_of_highestKey_none hk⟩)
    · exact .inr (.inr ⟨f, hs.trans he⟩)

/-- Settles O15: the own writes of the other instructions leave the framebuffer. -/
theorem onlyClsAndDrwChangeTheFramebuffer : Obligations.OnlyClsAndDrwChangeTheFramebuffer := by
  intro i s t h hcls hdrw cx cy
  rcases exec_next_cases h with ⟨-, rfl⟩ | ⟨x, -, rfl⟩
  · rw [completedState, commit_fb, ownWrites_fb s hcls hdrw]
  · rfl

/-- Settles O16: no instruction's own writes reach either field. -/
theorem noStepChangesKeypadOrParameter : Obligations.NoStepChangesKeypadOrParameter := by
  intro s t h
  obtain ⟨-, i, he⟩ := exec_of_step_next h
  rcases exec_next_cases he with ⟨-, rfl⟩ | ⟨x, -, rfl⟩
  · exact ⟨ownWrites_key i s, ownWrites_fx1eOverflow i s⟩
  · exact ⟨rfl, rfl⟩

/-- Settles O17: the own writes of the other instructions leave the stack, and SP but for 00EE. -/
theorem onlyCallWritesTheStack : Obligations.OnlyCallWritesTheStack := by
  intro i s t h hcall
  rcases exec_next_cases h with ⟨-, rfl⟩ | ⟨x, -, rfl⟩
  · exact ⟨ownWrites_stack s hcall, ownWrites_sp s hcall⟩
  · exact ⟨rfl, fun _ => rfl⟩

/-- Settles O18: the own writes of the other instructions leave I. -/
theorem onlyIndexInstructionsWriteI : Obligations.OnlyIndexInstructionsWriteI := by
  intro i s t h hldI hadd hldF
  rcases exec_next_cases h with ⟨-, rfl⟩ | ⟨x, -, rfl⟩
  · exact ownWrites_i s hldI hadd hldF
  · rfl

/-- Settles O21: the own writes reach the destination registers alone. -/
theorem onlyDestinationRegistersChange : Obligations.OnlyDestinationRegistersChange := by
  intro i s t r h hr
  rcases exec_next_cases h with ⟨-, rfl⟩ | ⟨x, -, rfl⟩
  · rw [completedState, readV_commit, readV_ownWrites s hr]
  · rfl

/-- Settles O23: the draw port shows the flag the step committed, and is 0 after a BLOCKED Fx0A. -/
theorem drawFlagMarksClsAndDrw : Obligations.DrawFlagMarksClsAndDrw := by
  refine ⟨fun i s t h => ?_, fun s f p h => ?_⟩
  · rcases exec_next_cases h with ⟨-, rfl⟩ | ⟨x, rfl, rfl⟩
    · rw [completedState, drawPort_commit, setsDrawFlag_iff]
    · simp [drawPort]
  · cases h
    exact ⟨rfl, rfl⟩

/-! ### The accessor port (R33) -/

theorem hostWrite_of_inDomain {w : HostWrite} (s : State) (h : w.inDomain = true) :
    hostWrite w s = .done (w.apply s) := if_pos h

theorem hostWrite_of_not_inDomain {w : HostWrite} (s : State) (h : w.inDomain = false) :
    hostWrite w s = .stateFault := by
  rw [hostWrite, h]
  rfl

/-- An accessor write inside its domain keeps memory canonical: only a byte write reaches memory. -/
theorem apply_mem_wf {w : HostWrite} {s : State} (hs : Memory.wf s.mem) (hw : w.inDomain = true) :
    Memory.wf (w.apply s).mem := by
  cases w with
  | mem addr value =>
    have ha : addr ≤ 4095 := by
      simp only [HostWrite.inDomain, Bool.and_eq_true, decide_eq_true_eq] at hw
      exact hw.1
    exact memWrite_wf hs ha
  | _ => exact hs

/-- Settles O59: a write is accepted only inside its domain, where the form is kept. -/
theorem hostWritesKeepTheMemoryForm : Obligations.HostWritesKeepTheMemoryForm := by
  intro w s t hs h
  rcases hostWrite_cases w s with ⟨hd, he⟩ | ⟨-, he⟩
  · cases h.symm.trans he
    exact apply_mem_wf hs hd
  · cases h.symm.trans he

/-- A value inside the domain of a word of `n` bits is the one the word holds. -/
theorem toNat_ofNat_of_le {n value top : Nat} (h : value ≤ top) (htop : top < 2 ^ n) :
    (BitVec.ofNat n value).toNat = value := by
  rw [BitVec.toNat_ofNat, Nat.mod_eq_of_lt (h.trans_lt htop)]

/-- An accessor's vector update sets its element. -/
theorem getElem_setIfInBounds_fin_self {α : Type} {n : Nat} (xs : Vector α n) (k : Fin n) (a : α) :
    (xs.setIfInBounds k.val a)[k] = a :=
  Vector.getElem_setIfInBounds_self k.isLt

/-- An accessor's vector update leaves every other element. -/
theorem getElem_setIfInBounds_fin_of_ne {α : Type} {n : Nat} (xs : Vector α n) {k j : Fin n} (a : α) (h : j ≠ k) :
    (xs.setIfInBounds k.val a)[j] = xs[j] :=
  Vector.getElem_setIfInBounds_ne j.isLt fun e => h (Fin.ext e.symm)

/-- Values above a byte are refused wherever a byte is written. -/
theorem hostWrite_above_byte (s : State) (k : Nat) {value : Nat} (h : 255 < value) :
    hostWrite (.v k value) s = .stateFault ∧ hostWrite (.dt value) s = .stateFault ∧
    hostWrite (.st value) s = .stateFault ∧ hostWrite (.mem k value) s = .stateFault := by
  have hv : ¬ value ≤ 255 := by omega
  refine ⟨?_, ?_, ?_, ?_⟩ <;> apply hostWrite_of_not_inDomain <;> simp [HostWrite.inDomain, hv]

/-- Values above a word are refused wherever a word is written. -/
theorem hostWrite_above_word (s : State) (k : Nat) {value : Nat} (h : 0xFFFF < value) :
    hostWrite (.i value) s = .stateFault ∧ hostWrite (.pc value) s = .stateFault ∧
    hostWrite (.stack k value) s = .stateFault := by
  have hv : ¬ value ≤ 65535 := by omega
  refine ⟨?_, ?_, ?_⟩ <;> apply hostWrite_of_not_inDomain <;> simp [HostWrite.inDomain, hv]

/-- An index above 15 is refused for the keypad, V and the stack. -/
theorem hostWrite_index_above_15 (s : State) {k : Nat} (value : Nat) (pressed : Bool) (h : 15 < k) :
    hostWrite (.key k pressed) s = .stateFault ∧ hostWrite (.v k value) s = .stateFault ∧
    hostWrite (.stack k value) s = .stateFault := by
  have hk : ¬ k ≤ 15 := by omega
  refine ⟨?_, ?_, ?_⟩ <;> apply hostWrite_of_not_inDomain <;> simp [HostWrite.inDomain, hk]

theorem hostWrite_v (s : State) (x : Reg) {value : Nat} (h : value ≤ 255) :
    hostWrite (.v x.val value) s = .done { s with v := s.v.setIfInBounds x.val (BitVec.ofNat 8 value) } :=
  hostWrite_of_inDomain s (by simp [HostWrite.inDomain, h, Nat.le_of_lt_succ x.isLt])

theorem hostWrite_stack (s : State) (k : Fin 16) {value : Nat} (h : value ≤ 0xFFFF) :
    hostWrite (.stack k.val value) s =
      .done { s with stack := s.stack.setIfInBounds k.val (BitVec.ofNat 16 value) } :=
  hostWrite_of_inDomain s (by simp [HostWrite.inDomain, h, Nat.le_of_lt_succ k.isLt])

theorem hostWrite_key (s : State) (k : Fin 16) (pressed : Bool) :
    hostWrite (.key k.val pressed) s = .done { s with key := s.key.setIfInBounds k.val pressed } :=
  hostWrite_of_inDomain s (by simp [HostWrite.inDomain, Nat.le_of_lt_succ k.isLt])

theorem hostWrite_mem (s : State) {a value : Nat} (ha : a ≤ 4095) (h : value ≤ 255) :
    hostWrite (.mem a value) s = .done { s with mem := memWrite s.mem a (BitVec.ofNat 8 value) } :=
  hostWrite_of_inDomain s (by simp [HostWrite.inDomain, ha, h])

/-- Settles O58: a write is refused outside its domain, and inside it is the update of one element. -/
theorem hostWritesAreCheckedAgainstTheirDomain : Obligations.HostWritesAreCheckedAgainstTheirDomain := by
  refine ⟨fun s k _ => hostWrite_above_byte s k, fun s k _ => hostWrite_above_word s k, fun s value h => ?sp_fault,
    fun s a value h => ?mem_fault, fun s _ value pressed => hostWrite_index_above_15 s value pressed,
    fun s x value h => ?v, fun s value h => ⟨?dt, ?st⟩, fun s value h => ⟨?i, ?pc⟩, fun s k value h => ?stack,
    fun s value h => ?sp, fun s a value hs ha h => ?mem, fun s k pressed => ?key⟩
  case sp_fault => exact hostWrite_of_not_inDomain s (decide_eq_false (by omega))
  case mem_fault => exact hostWrite_of_not_inDomain s (by simp [HostWrite.inDomain, show ¬ a ≤ 4095 by omega])
  case v =>
    refine ⟨_, hostWrite_v s x h, ?_, fun r hr => getElem_setIfInBounds_fin_of_ne _ _ hr, rfl⟩
    rw [readV, getElem_setIfInBounds_fin_self, toNat_ofNat_of_le h (by decide)]
  case dt | st => exact ⟨_, hostWrite_of_inDomain s (decide_eq_true h), toNat_ofNat_of_le h (by decide), rfl⟩
  case i | pc => exact ⟨_, hostWrite_of_inDomain s (decide_eq_true h), toNat_ofNat_of_le h (by decide), rfl⟩
  case stack =>
    refine ⟨_, hostWrite_stack s k h, ?_, fun j hj => getElem_setIfInBounds_fin_of_ne _ _ hj, rfl⟩
    rw [getElem_setIfInBounds_fin_self, toNat_ofNat_of_le h (by decide)]
  case sp => exact ⟨_, hostWrite_of_inDomain s (decide_eq_true h), Nat.mod_eq_of_lt (Nat.lt_succ_of_le h), rfl⟩
  case mem =>
    refine ⟨_, hostWrite_mem s ha h, ?_, fun b hb => memRead_memWrite_of_ne hb, rfl⟩
    rw [memRead_memWrite_self hs, toNat_ofNat_of_le h (by decide)]
  case key =>
    exact ⟨_, hostWrite_key s k pressed, getElem_setIfInBounds_fin_self _ _ _,
      fun j hj => getElem_setIfInBounds_fin_of_ne _ _ hj, rfl⟩

end Sys2Proof.Machine

/-! ## The memory family: fetch, range faults and stores (spec/20_memory.md) -/

namespace Sys2Proof.Machine

/-- The step of a PC inside the fetch range whose word decodes: the other two outcomes of `step_cases` contradict the
range and the decoding (R84, R85). -/
theorem step_eq_exec {s : State} {i : Instr} (hpc : s.pc.toNat ≤ 0xFFE)
    (hd : decode (opcodeAt s.mem s.pc.toNat) = some i) : step s = exec i s := by
  rcases step_cases s with ⟨hlt, -⟩ | ⟨-, hn, -⟩ | ⟨-, j, hj, hs⟩
  · exact absurd hlt hpc.not_gt
  · cases hd.symm.trans hn
  · cases hd.symm.trans hj
    exact hs

/-- Settles O6: the two bytes at PC, high byte first, are the word the step fetches. -/
theorem stepRunsTheDecodedInstruction : Obligations.StepRunsTheDecodedInstruction :=
  fun _ _ hpc hd => step_eq_exec (Nat.le_of_succ_le_succ hpc) hd

/-- Only Fx33 and Fx55 have a write of their own to memory (R53). -/
theorem ownWrites_mem {i : Instr} (s : State) (hldB : ∀ x, i ≠ .ldBVx x) (hldI : ∀ x, i ≠ .ldIVx x) :
    (ownWrites i s).mem = s.mem := by
  cases i with
  | ldBVx x => exact absurd rfl (hldB x)
  | ldIVx x => exact absurd rfl (hldI x)
  | _ => rfl

/-- Settles O19: the own writes of the other instructions leave memory, and so does a BLOCKED step. -/
theorem onlyStoresChangeMemory : Obligations.OnlyStoresChangeMemory := by
  intro i s t h hldB hldI a
  rcases exec_next_cases h with ⟨-, rfl⟩ | ⟨x, -, rfl⟩
  · rw [completedState, commit_mem, ownWrites_mem s hldB hldI]
  · rfl

/-- A meaning guarded by the check of a non-empty range at I faults when the last address is above 0xFFF, whatever it
would do inside memory (R56, R189). -/
theorem rangeGuard_faults {i : Instr} {s : State} {count : Nat} {inside : Result} (hcount : 1 ≤ count)
    (hlast : 0xFFF < s.i.toNat + count - 1) :
    (if inRange (indexAddr s) count then inside else raiseRange i (indexAddr s) s) =
      .fault (.addressOutOfRange { pc := s.pc, opcode := encode i, info := max s.i.toNat 0x1000 }) := by
  have hout : ¬ inRange s.i.toNat count = true := by rw [inRange_iff]; omega
  exact if_neg hout

/-- Settles O57: the four meanings check n bytes, 3 bytes, and x + 1 bytes twice. -/
theorem accessPastMemoryFaults : Obligations.AccessPastMemoryFaults :=
  ⟨fun _ _ _ _ hn hlast => rangeGuard_faults hn hlast,
   fun _ _ hlast => rangeGuard_faults (by decide) hlast,
   fun x _ hlast =>
    ⟨rangeGuard_faults (Nat.le_add_left 1 x.val) hlast, rangeGuard_faults (Nat.le_add_left 1 x.val) hlast⟩⟩

end Sys2Proof.Machine

/-! ## The encoding family: the decoder, the encoder and the table of R78 (spec/30_encoding.md) -/

namespace Sys2Proof

/-! ### Decoding an encoding (R72, R73) -/

/-- The fields of a packed word are the packed ones, so each class dispatches the encoding to its own arm. -/
theorem decode_encode (i : Instr) : decode (encode i) = some i := by
  cases i with
  | cls | ret => rfl
  | jp | call | ldI | jpV0 => simp [encode, decode]
  | seImm | sneImm | ldImm | addImm | rnd => simp [encode, decode]
  | drw => simp [encode, decode]
  | seReg => simp [encode, decode, decodeClass5]
  | ldReg | or | and | xor | addReg | sub | shr | subn | shl => simp [encode, decode, decodeClass8]
  | sneReg => simp [encode, decode, decodeClass9]
  | skp | sknp => simp [encode, decode, decodeClassE]
  | ldVxDt | ldVxK | ldDtVx | ldStVx | addIVx | ldFVx | ldBVx | ldIVx | ldVxI =>
    simp [encode, decode, decodeClassF]

/-- Settles O1, class by class. -/
theorem decodeInvertsEncode : Obligations.DecodeInvertsEncode :=
  decode_encode

/-! ### Encoding a decoding (R71, R88)

A word is the packing of its fields, so it is enough that an arm of the decoder fixes the class and the fields that the
encoder writes as constants. -/

theorem packNnn_of_fields {op : Word} {c : Nibble} (hc : classOf op = c) : packNnn c (fieldNnn op) = op := by
  rw [← hc, packNnn_fields]

theorem packXkk_of_fields {op : Word} {c : Nibble} {kk : Byte} (hc : classOf op = c) (hk : fieldKk op = kk) :
    packXkk c (fieldX op) kk = op := by
  rw [← hc, ← hk, packXkk_fields]

theorem packXyn_of_fields {op : Word} {c n : Nibble} (hc : classOf op = c) (hn : fieldN op = n) :
    packXyn c (fieldX op) (fieldY op) n = op := by
  rw [← hc, ← hn, packXyn_fields]

theorem encode_of_decodeClass0 {op : Word} {i : Instr} (hc : classOf op = 0x0) (h : decodeClass0 op = some i) :
    encode i = op := by
  have hop : packNnn 0x0 (fieldNnn op) = op := packNnn_of_fields hc
  unfold decodeClass0 at h
  split at h
  case h_1 hn | h_2 hn =>
    cases h
    rw [← hop, hn]
    rfl
  case h_3 => cases h

theorem encode_of_decodeClass5 {op : Word} {i : Instr} (hc : classOf op = 0x5) (h : decodeClass5 op = some i) :
    encode i = op := by
  unfold decodeClass5 at h
  split at h <;> cases h
  exact packXyn_of_fields hc ‹_›

theorem encode_of_decodeClass8 {op : Word} {i : Instr} (hc : classOf op = 0x8) (h : decodeClass8 op = some i) :
    encode i = op := by
  unfold decodeClass8 at h
  split at h <;> cases h <;> exact packXyn_of_fields hc ‹_›

theorem encode_of_decodeClass9 {op : Word} {i : Instr} (hc : classOf op = 0x9) (h : decodeClass9 op = some i) :
    encode i = op := by
  unfold decodeClass9 at h
  split at h <;> cases h
  exact packXyn_of_fields hc ‹_›

theorem encode_of_decodeClassE {op : Word} {i : Instr} (hc : classOf op = 0xE) (h : decodeClassE op = some i) :
    encode i = op := by
  unfold decodeClassE at h
  split at h <;> cases h <;> exact packXkk_of_fields hc ‹_›

theorem encode_of_decodeClassF {op : Word} {i : Instr} (hc : classOf op = 0xF) (h : decodeClassF op = some i) :
    encode i = op := by
  unfold decodeClassF at h
  split at h <;> cases h <;> exact packXkk_of_fields hc ‹_›

/-- The classes whose words decode whatever the other fields hold (R77). -/
def fullClasses : List Nibble := [0x1, 0x2, 0x3, 0x4, 0x6, 0x7, 0xA, 0xB, 0xC, 0xD]

/-- A word of a full class decodes, to an instruction it encodes. -/
theorem decode_of_fullClass {op : Word} (h : classOf op ∈ fullClasses) :
    ∃ i, decode op = some i ∧ encode i = op := by
  have hcases : classOf op = 0x1 ∨ classOf op = 0x2 ∨ classOf op = 0x3 ∨ classOf op = 0x4 ∨ classOf op = 0x6 ∨
      classOf op = 0x7 ∨ classOf op = 0xA ∨ classOf op = 0xB ∨ classOf op = 0xC ∨ classOf op = 0xD := by
    simpa [fullClasses] using h
  rcases hcases with hc | hc | hc | hc | hc | hc | hc | hc | hc | hc
  · exact ⟨.jp _, by simp [decode, hc], packNnn_of_fields hc⟩
  · exact ⟨.call _, by simp [decode, hc], packNnn_of_fields hc⟩
  · exact ⟨.seImm _ _, by simp [decode, hc], packXkk_of_fields hc rfl⟩
  · exact ⟨.sneImm _ _, by simp [decode, hc], packXkk_of_fields hc rfl⟩
  · exact ⟨.ldImm _ _, by simp [decode, hc], packXkk_of_fields hc rfl⟩
  · exact ⟨.addImm _ _, by simp [decode, hc], packXkk_of_fields hc rfl⟩
  · exact ⟨.ldI _, by simp [decode, hc], packNnn_of_fields hc⟩
  · exact ⟨.jpV0 _, by simp [decode, hc], packNnn_of_fields hc⟩
  · exact ⟨.rnd _ _, by simp [decode, hc], packXkk_of_fields hc rfl⟩
  · exact ⟨.drw _ _ _, by simp [decode, hc], packXyn_of_fields hc rfl⟩

/-- Everything the first-level dispatch can do (R77): a full class decodes, and six classes dispatch again. -/
theorem decode_cases (op : Word) :
    (classOf op ∈ fullClasses ∧ ∃ i, decode op = some i ∧ encode i = op) ∨
    (classOf op = 0x0 ∧ decode op = decodeClass0 op) ∨
    (classOf op = 0x5 ∧ decode op = decodeClass5 op) ∨
    (classOf op = 0x8 ∧ decode op = decodeClass8 op) ∨
    (classOf op = 0x9 ∧ decode op = decodeClass9 op) ∨
    (classOf op = 0xE ∧ decode op = decodeClassE op) ∨
    (classOf op = 0xF ∧ decode op = decodeClassF op) := by
  by_cases hfull : classOf op ∈ fullClasses
  · exact .inl ⟨hfull, decode_of_fullClass hfull⟩
  · have hclass : ∀ c : Nibble, c ∉ fullClasses → c = 0x0 ∨ c = 0x5 ∨ c = 0x8 ∨ c = 0x9 ∨ c = 0xE ∨ c = 0xF := by
      decide
    right
    rcases hclass _ hfull with hc | hc | hc | hc | hc | hc <;> simp [decode, hc]

theorem encode_of_decode {op : Word} {i : Instr} (h : decode op = some i) : encode i = op := by
  rcases decode_cases op with ⟨-, j, hd, hj⟩ | ⟨hc, hd⟩ | ⟨hc, hd⟩ | ⟨hc, hd⟩ | ⟨hc, hd⟩ | ⟨hc, hd⟩ | ⟨hc, hd⟩
  · cases hd.symm.trans h
    exact hj
  · exact encode_of_decodeClass0 hc (hd.symm.trans h)
  · exact encode_of_decodeClass5 hc (hd.symm.trans h)
  · exact encode_of_decodeClass8 hc (hd.symm.trans h)
  · exact encode_of_decodeClass9 hc (hd.symm.trans h)
  · exact encode_of_decodeClassE hc (hd.symm.trans h)
  · exact encode_of_decodeClassF hc (hd.symm.trans h)

/-- Settles O2: every arm of the decoder keeps the fields of the word. -/
theorem encodeInvertsDecode : Obligations.EncodeInvertsDecode :=
  fun _ _ h => encode_of_decode h

/-- Decoder and encoder are inverse to each other. -/
theorem decode_eq_some_iff {op : Word} {i : Instr} : decode op = some i ↔ encode i = op :=
  ⟨encode_of_decode, fun h => h ▸ decode_encode i⟩

/-- Settles O5, by evaluating the decoder on each word. -/
theorem decodesTheseWords : Obligations.DecodesTheseWords := by
  unfold Obligations.DecodesTheseWords
  decide

/-! ### The rows of R78 -/

/-- The instruction of the same row whose operands are the fields of the word. -/
def withFieldsOf (op : Word) : Instr → Instr
  | .cls => .cls
  | .ret => .ret
  | .jp _ => .jp (fieldNnn op)
  | .call _ => .call (fieldNnn op)
  | .seImm _ _ => .seImm (fieldX op) (fieldKk op)
  | .sneImm _ _ => .sneImm (fieldX op) (fieldKk op)
  | .seReg _ _ => .seReg (fieldX op) (fieldY op)
  | .ldImm _ _ => .ldImm (fieldX op) (fieldKk op)
  | .addImm _ _ => .addImm (fieldX op) (fieldKk op)
  | .ldReg _ _ => .ldReg (fieldX op) (fieldY op)
  | .or _ _ => .or (fieldX op) (fieldY op)
  | .and _ _ => .and (fieldX op) (fieldY op)
  | .xor _ _ => .xor (fieldX op) (fieldY op)
  | .addReg _ _ => .addReg (fieldX op) (fieldY op)
  | .sub _ _ => .sub (fieldX op) (fieldY op)
  | .shr _ _ => .shr (fieldX op) (fieldY op)
  | .subn _ _ => .subn (fieldX op) (fieldY op)
  | .shl _ _ => .shl (fieldX op) (fieldY op)
  | .sneReg _ _ => .sneReg (fieldX op) (fieldY op)
  | .ldI _ => .ldI (fieldNnn op)
  | .jpV0 _ => .jpV0 (fieldNnn op)
  | .rnd _ _ => .rnd (fieldX op) (fieldKk op)
  | .drw _ _ _ => .drw (fieldX op) (fieldY op) (fieldN op)
  | .skp _ => .skp (fieldX op)
  | .sknp _ => .sknp (fieldX op)
  | .ldVxDt _ => .ldVxDt (fieldX op)
  | .ldVxK _ => .ldVxK (fieldX op)
  | .ldDtVx _ => .ldDtVx (fieldX op)
  | .ldStVx _ => .ldStVx (fieldX op)
  | .addIVx _ => .addIVx (fieldX op)
  | .ldFVx _ => .ldFVx (fieldX op)
  | .ldBVx _ => .ldBVx (fieldX op)
  | .ldIVx _ => .ldIVx (fieldX op)
  | .ldVxI _ => .ldVxI (fieldX op)

@[simp] theorem rowOf_withFieldsOf (op : Word) (i : Instr) : rowOf (withFieldsOf op i) = rowOf i := by
  cases i <;> rfl

/-- A mask that keeps the class nibble fixes the class. -/
theorem classOf_of_and {op m p : Word} (h : op &&& m = p) (hm : classOf m = BitVec.allOnes 4) :
    classOf op = classOf p := by
  rw [← h, classOf_and, hm, BitVec.and_allOnes]

/-- A mask that keeps the low nibble fixes `n`. -/
theorem fieldN_of_and {op m p : Word} (h : op &&& m = p) (hm : fieldN m = BitVec.allOnes 4) :
    fieldN op = fieldN p := by
  rw [← h, fieldN_and, hm, BitVec.and_allOnes]

/-- A mask that keeps the low byte fixes `kk`. -/
theorem fieldKk_of_and {op m p : Word} (h : op &&& m = p) (hm : fieldKk m = BitVec.allOnes 8) :
    fieldKk op = fieldKk p := by
  rw [← h, fieldKk_and, hm, BitVec.and_allOnes]

/-- The rows with mask 0xF000 and `nnn`. -/
theorem packNnn_of_row {op : Word} {c : Nibble} (h : op &&& 0xF000 = packNnn c 0) : packNnn c (fieldNnn op) = op :=
  packNnn_of_fields ((classOf_of_and h rfl).trans (classOf_packNnn c 0))

/-- The rows with mask 0xF000 and `x`, `kk`. -/
theorem packXkk_of_class_row {op : Word} {c : Nibble} (h : op &&& 0xF000 = packXkk c 0 0) :
    packXkk c (fieldX op) (fieldKk op) = op :=
  packXkk_of_fields ((classOf_of_and h rfl).trans (classOf_packXkk c 0 0)) rfl

/-- The rows with mask 0xF0FF. -/
theorem packXkk_of_low_row {op : Word} {c : Nibble} {kk : Byte} (h : op &&& 0xF0FF = packXkk c 0 kk) :
    packXkk c (fieldX op) kk = op :=
  packXkk_of_fields ((classOf_of_and h rfl).trans (classOf_packXkk c 0 kk))
    ((fieldKk_of_and h rfl).trans (fieldKk_packXkk c 0 kk))

/-- The row of Dxyn. -/
theorem packXyn_of_class_row {op : Word} {c : Nibble} (h : op &&& 0xF000 = packXyn c 0 0 0) :
    packXyn c (fieldX op) (fieldY op) (fieldN op) = op :=
  packXyn_of_fields ((classOf_of_and h rfl).trans (classOf_packXyn c 0 0 0)) rfl

/-- The rows with mask 0xF00F. -/
theorem packXyn_of_low_row {op : Word} {c n : Nibble} (h : op &&& 0xF00F = packXyn c 0 0 n) :
    packXyn c (fieldX op) (fieldY op) n = op :=
  packXyn_of_fields ((classOf_of_and h rfl).trans (classOf_packXyn c 0 0 n))
    ((fieldN_of_and h rfl).trans (fieldN_packXyn c 0 0 n))

/-- A word of a row is the encoding of the row's instruction with the fields of the word. -/
theorem encode_withFieldsOf {op : Word} {i : Instr} (h : op &&& (rowOf i).mask = (rowOf i).pattern) :
    encode (withFieldsOf op i) = op := by
  cases i with
  | cls | ret => exact h.symm.trans BitVec.and_allOnes
  | jp | call | ldI | jpV0 => exact packNnn_of_row h
  | seImm | sneImm | ldImm | addImm | rnd => exact packXkk_of_class_row h
  | drw => exact packXyn_of_class_row h
  | seReg | ldReg | or | and | xor | addReg | sub | shr | subn | shl | sneReg => exact packXyn_of_low_row h
  | skp | sknp | ldVxDt | ldVxK | ldDtVx | ldStVx | addIVx | ldFVx | ldBVx | ldIVx | ldVxI =>
    exact packXkk_of_low_row h

/-- An encoding lies in its instruction's own row. -/
theorem encode_and_mask (i : Instr) : encode i &&& (rowOf i).mask = (rowOf i).pattern := by
  cases i with
  | cls | ret => rfl
  | jp | call | ldI | jpV0 => exact Laws.packNnn_class _ _
  | seImm | sneImm | ldImm | addImm | rnd => exact Laws.packXkk_class _ _ _
  | drw => exact Laws.packXyn_class _ _ _ _
  | seReg | ldReg | or | and | xor | addReg | sub | shr | subn | shl | sneReg => exact Laws.packXyn_low _ _ _ _
  | skp | sknp | ldVxDt | ldVxK | ldDtVx | ldStVx | addIVx | ldFVx | ldBVx | ldIVx | ldVxI =>
    exact Laws.packXkk_low _ _ _

/-- The words of a row, and no others, decode to the row's instruction with the fields of the word (R78). -/
theorem encoded_row (i : Instr) : Encoded (rowOf i).mask (rowOf i).pattern (withFieldsOf · i) := by
  intro op
  rw [decode_eq_some_iff]
  refine ⟨fun h => ?_, encode_withFieldsOf⟩
  have hrow := encode_and_mask (withFieldsOf op i)
  rwa [h, rowOf_withFieldsOf] at hrow

/-- A word of a row decodes to an instruction of that row. -/
theorem decode_of_row {op : Word} {i : Instr} (h : op &&& (rowOf i).mask = (rowOf i).pattern) :
    decode op = some (withFieldsOf op i) :=
  (encoded_row i op).2 h

theorem row_of_decode {op : Word} {i : Instr} (h : decode op = some i) :
    op &&& (rowOf i).mask = (rowOf i).pattern := by
  rw [← encode_of_decode h, encode_and_mask]

/-- The rows of the table are the rows of the instructions. -/
theorem mem_opcodeTable_iff {r : OpcodeRow} : r ∈ opcodeTable ↔ ∃ i, rowOf i = r := by
  refine ⟨fun h => ?_, ?_⟩
  · obtain ⟨i, -, hi⟩ := List.mem_map.1 h
    exact ⟨i, hi⟩
  · rintro ⟨i, rfl⟩
    cases i <;> simp [opcodeTable, oneOfEach, rowOf]

theorem decode_isSome_iff (op : Word) :
    (decode op).isSome = true ↔ ∃ r ∈ opcodeTable, op &&& r.mask = r.pattern := by
  rw [Option.isSome_iff_exists]
  refine ⟨fun ⟨i, h⟩ => ⟨rowOf i, mem_opcodeTable_iff.2 ⟨i, rfl⟩, row_of_decode h⟩, ?_⟩
  rintro ⟨r, hr, h⟩
  obtain ⟨i, rfl⟩ := mem_opcodeTable_iff.1 hr
  exact ⟨_, decode_of_row h⟩

/-- A word lies in one row only: that of the instruction it decodes to. -/
theorem row_unique {r q : OpcodeRow} (hr : r ∈ opcodeTable) (hq : q ∈ opcodeTable) {op : Word}
    (hopr : op &&& r.mask = r.pattern) (hopq : op &&& q.mask = q.pattern) : r = q := by
  obtain ⟨i, rfl⟩ := mem_opcodeTable_iff.1 hr
  obtain ⟨j, rfl⟩ := mem_opcodeTable_iff.1 hq
  have hij : withFieldsOf op i = withFieldsOf op j := by
    simpa using (decode_of_row hopr).symm.trans (decode_of_row hopq)
  simpa using congrArg rowOf hij

/-- Settles O3: a word of two rows would decode to one instruction of both, and the 34 rows are distinct. -/
theorem opcodeTableIsComplete : Obligations.OpcodeTableIsComplete := by
  have hdistinct : opcodeTable.Nodup := by decide
  refine ⟨rfl, decode_isSome_iff, fun _ _ h => row_of_decode h, ?_⟩
  exact hdistinct.imp_of_mem fun hr hq hne op ⟨hopr, hopq⟩ => hne (row_unique hr hq hopr hopq)

/-! ### The unknown space (R80) -/

theorem decodeClass0_eq_none_iff {op : Word} : decodeClass0 op = none ↔ fieldNnn op ∉ [0x0E0, 0x0EE] := by
  unfold decodeClass0
  split <;> simp_all

theorem decodeClass5_eq_none_iff {op : Word} : decodeClass5 op = none ↔ fieldN op ∉ [0x0] := by
  unfold decodeClass5
  split <;> simp_all

theorem decodeClass8_eq_none_iff {op : Word} :
    decodeClass8 op = none ↔ fieldN op ∉ [0x0, 0x1, 0x2, 0x3, 0x4, 0x5, 0x6, 0x7, 0xE] := by
  unfold decodeClass8
  split <;> simp_all

theorem decodeClass9_eq_none_iff {op : Word} : decodeClass9 op = none ↔ fieldN op ∉ [0x0] := by
  unfold decodeClass9
  split <;> simp_all

theorem decodeClassE_eq_none_iff {op : Word} : decodeClassE op = none ↔ fieldKk op ∉ [0x9E, 0xA1] := by
  unfold decodeClassE
  split <;> simp_all

theorem decodeClassF_eq_none_iff {op : Word} :
    decodeClassF op = none ↔ fieldKk op ∉ [0x07, 0x0A, 0x15, 0x18, 0x1E, 0x29, 0x33, 0x55, 0x65] := by
  unfold decodeClassF
  split <;> simp_all

/-- The unknown space field by field: R80's list with the class and the low field of the word instead of its number. -/
def UnknownFields (op : Word) : Prop :=
  (classOf op = 0x0 ∧ fieldNnn op ∉ [0x0E0, 0x0EE]) ∨
  (classOf op = 0x5 ∧ fieldN op ∉ [0x0]) ∨
  (classOf op = 0x8 ∧ fieldN op ∉ [0x0, 0x1, 0x2, 0x3, 0x4, 0x5, 0x6, 0x7, 0xE]) ∨
  (classOf op = 0x9 ∧ fieldN op ∉ [0x0]) ∨
  (classOf op = 0xE ∧ fieldKk op ∉ [0x9E, 0xA1]) ∨
  (classOf op = 0xF ∧ fieldKk op ∉ [0x07, 0x0A, 0x15, 0x18, 0x1E, 0x29, 0x33, 0x55, 0x65])

theorem decode_eq_none_iff_unknownFields (op : Word) : decode op = none ↔ UnknownFields op := by
  unfold UnknownFields
  rcases decode_cases op with ⟨hfull, i, hd, -⟩ | ⟨hc, hd⟩ | ⟨hc, hd⟩ | ⟨hc, hd⟩ | ⟨hc, hd⟩ | ⟨hc, hd⟩ | ⟨hc, hd⟩
  · refine iff_of_false (by simp [hd]) ?_
    rintro (⟨hc, -⟩ | ⟨hc, -⟩ | ⟨hc, -⟩ | ⟨hc, -⟩ | ⟨hc, -⟩ | ⟨hc, -⟩) <;> simp [hc, fullClasses] at hfull
  · rw [hd, decodeClass0_eq_none_iff]; simp [hc]
  · rw [hd, decodeClass5_eq_none_iff]; simp [hc]
  · rw [hd, decodeClass8_eq_none_iff]; simp [hc]
  · rw [hd, decodeClass9_eq_none_iff]; simp [hc]
  · rw [hd, decodeClassE_eq_none_iff]; simp [hc]
  · rw [hd, decodeClassF_eq_none_iff]; simp [hc]

theorem classOf_toNat (op : Word) : (classOf op).toNat = op.toNat / 0x1000 := by
  have := op.isLt
  simp only [classOf, BitVec.extractLsb'_toNat, Nat.shiftRight_eq_div_pow]
  omega

theorem fieldN_toNat (op : Word) : (fieldN op).toNat = op.toNat % 0x10 := by
  simp [fieldN]

theorem fieldKk_toNat (op : Word) : (fieldKk op).toNat = op.toNat % 0x100 := by
  simp [fieldKk]

theorem fieldNnn_toNat (op : Word) : (fieldNnn op).toNat = op.toNat % 0x1000 := by
  simp [fieldNnn]

theorem unknownSpace_iff_unknownFields (op : Word) : UnknownSpace op ↔ UnknownFields op := by
  simp only [UnknownSpace, UnknownFields, ← BitVec.toNat_inj, List.mem_cons, List.not_mem_nil, or_false,
    classOf_toNat, fieldN_toNat, fieldKk_toNat, fieldNnn_toNat, BitVec.toNat_ofNat, BitVec.ofNat_eq_ofNat]
  have hop := op.isLt
  rw [← or_assoc, ← or_assoc]
  refine or_congr ?class0 (or_congr ?class5 (or_congr ?class8 (or_congr ?class9 (or_congr ?classE ?classF)))) <;> omega

theorem unknownSpace_iff_decode_eq_none (op : Word) : UnknownSpace op ↔ decode op = none :=
  (unknownSpace_iff_unknownFields op).trans (decode_eq_none_iff_unknownFields op).symm

/-- The listed space is the set of words of no row. -/
theorem unknownSpace_iff_no_row (op : Word) : UnknownSpace op ↔ ∀ r ∈ opcodeTable, op &&& r.mask ≠ r.pattern := by
  rw [unknownSpace_iff_decode_eq_none, ← Option.not_isSome_iff_eq_none, decode_isSome_iff]
  simp only [not_exists, not_and, ne_eq]

end Sys2Proof

namespace Sys2Proof.Machine

/-- The constructors of the faults that an instruction itself raises; the fifth kind belongs to the decode (R200). -/
def RaisedByExec (kind : FaultRecord → Fault) : Prop :=
  kind = .stackOverflow ∨ kind = .stackUnderflow ∨ kind = .addressOutOfRange ∨ kind = .stateFault

/-- An instruction that passes its own check completes (R85). -/
theorem exec_of_ownCheck {i : Instr} {s : State} (h : ownCheck i s) : exec i s = .next (completedState i s) := by
  cases i with
  | ret | call => exact if_neg h
  | jpV0 | drw | skp | sknp | ldBVx | ldIVx | ldVxI => exact if_pos h
  | ldVxK x => exact ((exec_ldVxK_cases x s).resolve_right fun hblock => h hblock.1).2
  | addIVx x =>
    refine ((exec_addIVx_cases x s).resolve_right fun ⟨f, hf⟩ => ?_).2
    simp only [exec, execAddIVx] at hf
    rcases h with hp | ho
    · rw [hp] at hf
      cases hf
    · rw [ho] at hf
      split at hf <;> cases hf
  | _ => rfl

/-- An instruction that fails its own check blocks or raises a fault with its PC and its encoding (R85, R181, R200). -/
theorem exec_of_not_ownCheck {i : Instr} {s : State} (h : ¬ ownCheck i s) :
    exec i s = .next { s with result := .blocked } ∨
    ∃ kind info, RaisedByExec kind ∧ exec i s = raise kind i info s := by
  cases i with
  | ret => exact .inr ⟨_, _, .inr (.inl rfl), if_pos (not_not.1 h)⟩
  | call => exact .inr ⟨_, _, .inl rfl, if_pos (not_not.1 h)⟩
  | jpV0 | drw | ldBVx | ldIVx | ldVxI => exact .inr ⟨_, _, .inr (.inr (.inl rfl)), if_neg h⟩
  | skp | sknp => exact .inr ⟨_, _, .inr (.inr (.inr rfl)), if_neg h⟩
  | ldVxK x => exact .inl ((exec_ldVxK_cases x s).resolve_left fun hc => h hc.1).2
  | addIVx x =>
    obtain ⟨hp, ho⟩ := not_or.1 h
    refine .inr ⟨.addressOutOfRange, indexSum s x, .inr (.inr (.inl rfl)), ?_⟩
    simp only [exec, execAddIVx]
    split
    · exact absurd ‹_› hp
    · exact if_pos (by simpa using ho)
  | _ => exact absurd trivial h

/-- Every fault of an instruction is one it raised (R200). -/
theorem exec_fault_cases {i : Instr} {s : State} {f : Fault} (h : exec i s = .fault f) :
    ∃ kind info, RaisedByExec kind ∧ f = kind { pc := s.pc, opcode := encode i, info := info } := by
  by_cases hc : ownCheck i s
  · cases (exec_of_ownCheck hc).symm.trans h
  · rcases exec_of_not_ownCheck hc with he | ⟨kind, info, hkind, he⟩
    · cases he.symm.trans h
    · cases he.symm.trans h
      exact ⟨kind, info, hkind, rfl⟩

theorem exec_ne_unknownOpcode (i : Instr) (s : State) (r : FaultRecord) : exec i s ≠ .fault (.unknownOpcode r) := by
  intro h
  obtain ⟨kind, info, hkind, hf⟩ := exec_fault_cases h
  rcases hkind with rfl | rfl | rfl | rfl <;> cases hf

/-! ### How far a step advances PC (R86, R87) -/

theorem skipTarget_toNat {s : State} (condition : Bool) (hpc : s.pc.toNat ≤ 0xFFE) :
    (skipTarget condition s).toNat = s.pc.toNat + if condition then 4 else 2 := by
  cases condition <;> exact pc_add_toNat hpc (by decide)

theorem highestKey_ne_none_of_key {s : State} {k : Fin 16} (h : s.key[k] = true) : highestKey s ≠ none := by
  intro hnone
  cases h.symm.trans (key_eq_false_of_highestKey_none hnone k)

theorem key_getElem?_eq_some {s : State} {n : Nat} {pressed : Bool} (h : s.key[n]? = some pressed) :
    n ≤ 0xF ∧ keyPressed s n = pressed := by
  obtain ⟨hn, hk⟩ := Vector.getElem?_eq_some_iff.1 h
  exact ⟨Nat.le_of_lt_succ hn, (vector_getD s.key false hn).trans hk⟩

/-- An instruction that advances PC passes its own check (R85). -/
theorem ownCheck_of_pcAdvance {i : Instr} {s : State} {d : Nat} (h : pcAdvance i s = some d) : ownCheck i s := by
  cases i with
  | ret | jp | call | jpV0 => cases h
  | skp x | sknp x =>
    obtain ⟨pressed, hk, -⟩ := Option.map_eq_some_iff.1 h
    exact decide_eq_true (key_getElem?_eq_some hk).1
  | ldVxK x =>
    obtain ⟨⟨k, hk⟩, -⟩ := Option.ite_none_right_eq_some.1 h
    exact highestKey_ne_none_of_key hk
  | addIVx x =>
    obtain ⟨hcheck, -⟩ := Option.ite_none_right_eq_some.1 h
    exact hcheck.imp_right fun hle => decide_eq_false hle.not_gt
  | drw x y n =>
    obtain ⟨hcheck, -⟩ := Option.ite_none_right_eq_some.1 h
    exact (inRange_iff _ _).2 hcheck
  | ldBVx x | ldIVx x | ldVxI x =>
    obtain ⟨hle, -⟩ := Option.ite_none_right_eq_some.1 h
    exact (inRange_iff _ _).2 (.inr (Nat.succ_le_succ hle))
  | _ => trivial

/-- The PC committed is the advanced one. -/
theorem nextPc_of_pcAdvance {i : Instr} {s : State} {d : Nat} (hpc : s.pc.toNat ≤ 0xFFE)
    (h : pcAdvance i s = some d) : (nextPc i s).toNat = s.pc.toNat + d := by
  have hadvance : (s.pc + 2).toNat = s.pc.toNat + 2 := skipTarget_toNat false hpc
  cases i with
  | ret | jp | call | jpV0 => cases h
  | seImm | sneImm | seReg | sneReg =>
    cases h
    refine (skipTarget_toNat _ hpc).trans ?_
    simp
  | skp x | sknp x =>
    obtain ⟨pressed, hk, rfl⟩ := Option.map_eq_some_iff.1 h
    refine (skipTarget_toNat _ hpc).trans ?_
    obtain ⟨-, rfl⟩ := key_getElem?_eq_some hk
    cases keyPressed s (readV s x).toNat <;> rfl
  | drw | ldVxK | addIVx | ldBVx | ldIVx | ldVxI =>
    obtain ⟨-, hd⟩ := Option.ite_none_right_eq_some.1 h
    cases hd
    exact hadvance
  | _ =>
    cases h
    exact hadvance

/-! ### The step -/

/-- The step of a PC above the fetch range (R75). -/
theorem step_of_pc_gt {s : State} (hpc : 0xFFE < s.pc.toNat) :
    step s = .fault (.addressOutOfRange { pc := s.pc, opcode := 0, info := max s.pc.toNat 0x1000 }) := by
  rcases step_cases s with ⟨-, hs⟩ | ⟨hle, -, -⟩ | ⟨hle, -⟩
  · exact hs
  · exact absurd hpc hle.not_gt
  · exact absurd hpc hle.not_gt

/-- The step of a PC inside the fetch range whose word is no instruction (R80). -/
theorem step_of_decode_none {s : State} (hpc : s.pc.toNat ≤ 0xFFE)
    (hd : decode (opcodeAt s.mem s.pc.toNat) = none) :
    step s = .fault (.unknownOpcode { pc := s.pc, opcode := opcodeAt s.mem s.pc.toNat, info := 0 }) := by
  rcases step_cases s with ⟨hlt, -⟩ | ⟨-, -, hs⟩ | ⟨-, i, hi, -⟩
  · exact absurd hlt hpc.not_gt
  · exact hs
  · cases hd.symm.trans hi

/-- Settles O4: the listed space is where the decoder answers nothing, and no instruction raises UnknownOpcode. -/
theorem unknownOpcodesAreExactlyTheListedSpace : Obligations.UnknownOpcodesAreExactlyTheListedSpace := by
  refine ⟨unknownSpace_iff_no_row, fun s hpc => ?_⟩
  rw [unknownSpace_iff_decode_eq_none]
  refine ⟨fun hd => ⟨_, step_of_decode_none hpc hd, rfl, rfl⟩, fun ⟨r, hs, _, _⟩ => ?_⟩
  cases hd : decode (opcodeAt s.mem s.pc.toNat) with
  | none => rfl
  | some i => exact absurd ((step_eq_exec hpc hd).symm.trans hs) (exec_ne_unknownOpcode i s r)

/-- Settles O7: an instruction that advances PC passes its own check and completes, whatever the new PC is; the fetch of
the next step is what checks it. -/
theorem fetchPastMemoryFaults : Obligations.FetchPastMemoryFaults := by
  refine ⟨fun s hpc => step_of_pc_gt hpc, fun s i d hpc hd hadvance => ?_⟩
  have hstep : step s = .next (completedState i s) :=
    (step_eq_exec hpc hd).trans (exec_of_ownCheck (ownCheck_of_pcAdvance hadvance))
  have hnext : (completedState i s).pc.toNat = s.pc.toNat + d := nextPc_of_pcAdvance hpc hadvance
  exact ⟨_, hstep, hnext, fun hpast => step_of_pc_gt (hnext.symm ▸ hpast)⟩

end Sys2Proof.Machine

/-! ## The system family: clear screen and return (spec/40_family0_system.md) -/

namespace Sys2Proof.Machine

@[simp] theorem pixel_replicate_zero (cx : Fin 64) (cy : Fin 32) : pixel (Vector.replicate 32 0) cx cy = false := by
  simp [pixel]

/-- Settles O24: 00E0 has no check to fail, and its row of R78 has no field. -/
theorem clsClearsTheFramebuffer : Obligations.ClsClearsTheFramebuffer := by
  refine ⟨encoded_row .cls, fun s => ?_⟩
  have hexec : exec .cls s = .next (completedState .cls s) := exec_of_ownCheck trivial
  exact ⟨_, hexec, pixel_replicate_zero, drawPort_commit _ _ _, rfl⟩

/-- The decremented stack pointer is in SP's domain. -/
theorem ownWrites_ret_sp_val (s : State) : (ownWrites .ret s).sp.val = s.sp.val - 1 :=
  Nat.mod_eq_of_lt (by omega)

/-- 00EE returns to the entry at the decremented stack pointer, which is one of the 16 (R101, D4). -/
theorem stack_getElem?_eq_nextPc_ret (s : State) : s.stack[s.sp.val - 1]? = some (nextPc .ret s) := by
  have hk : s.sp.val - 1 < 16 := by omega
  have hpop : nextPc .ret s = s.stack[s.sp.val - 1] := vector_getD _ _ hk
  rw [hpop, Vector.getElem?_eq_getElem hk]

/-- Settles O25: a non-empty stack is the check of 00EE. -/
theorem retPopsTheReturnAddress : Obligations.RetPopsTheReturnAddress := by
  intro s hsp
  have hexec : exec .ret s = .next (completedState .ret s) := exec_of_ownCheck (show s.sp.val ≠ 0 from hsp.ne')
  have hval : (completedState .ret s).sp.val = s.sp.val - 1 := ownWrites_ret_sp_val s
  refine ⟨_, hexec, ?_, ?_, rfl⟩
  · rw [hval, Nat.sub_add_cancel hsp]
  · rw [hval]
    exact stack_getElem?_eq_nextPc_ret s

/-- Settles O26: the check of 00EE stands before its writes, so nothing is popped from an empty stack. -/
theorem retOnEmptyStackFaults : Obligations.RetOnEmptyStackFaults :=
  fun _ hsp => if_pos hsp

end Sys2Proof.Machine

/-! ## The flow and immediate family: classes 1 to 7 (spec/41_family1-7_flow_and_immediate.md) -/

namespace Sys2Proof.Machine

/-! ### Jump and call (R110, R111) -/

/-- Settles O27: 1nnn has no check to fail and no write of its own but PC. -/
theorem jpJumps : Obligations.JpJumps := by
  refine ⟨encoded_row (.jp 0), fun nnn s => ?_⟩
  have hexec : exec (.jp nnn) s = .next (completedState (.jp nnn) s) := exec_of_ownCheck trivial
  exact ⟨_, hexec, zextAddr_toNat nnn, rfl⟩

/-- The incremented stack pointer is in SP's domain. -/
theorem ownWrites_call_sp_val {s : State} (nnn : Addr) (hsp : s.sp.val < 16) :
    (ownWrites (.call nnn) s).sp.val = s.sp.val + 1 :=
  Nat.mod_eq_of_lt (by omega)

/-- Settles O28: a free entry is the check of 2nnn, and the push is one entry's update. -/
theorem callPushesTheReturnAddress : Obligations.CallPushesTheReturnAddress := by
  intro nnn s hsp
  have hexec : exec (.call nnn) s = .next (completedState (.call nnn) s) :=
    exec_of_ownCheck (show s.sp.val ≠ 16 from hsp.ne)
  refine ⟨_, hexec, ?pushed, fun k hk => ?others, ownWrites_call_sp_val nnn hsp, zextAddr_toNat nnn, rfl⟩
  case pushed => exact Vector.getElem?_setIfInBounds_self_of_lt hsp
  case others => exact Vector.getElem_setIfInBounds_ne k.isLt hk.symm

/-- An address field fills the bits below the class (R71, R73). -/
theorem packNnn_eq_or (c : Nibble) (nnn : Addr) : packNnn c nnn = packNnn c 0 ||| zextAddr nnn := by
  apply BitVec.eq_of_getLsbD_eq
  intro j hj
  rw [BitVec.getLsbD_or, getLsbD_packNnn, getLsbD_packNnn, zextAddr, BitVec.getLsbD_setWidth]
  by_cases h12 : j < 12
  · simp [h12, hj]
  · simp [h12, BitVec.getLsbD_of_ge nnn j (Nat.le_of_not_lt h12)]

/-- Settles O29: the check of 2nnn stands before its writes, and its record carries the encoding. -/
theorem callOnFullStackFaults : Obligations.CallOnFullStackFaults := by
  intro nnn s hsp
  have hop : encode (.call nnn) = 0x2000 ||| zextAddr nnn := packNnn_eq_or 0x2 nnn
  rw [← hop]
  exact if_pos hsp

/-- Settles O30: the return pops the entry the call pushed, because each moves SP by one; neither step writes the other
fields. -/
theorem callThenRetContinuesAfterTheCall : Obligations.CallThenRetContinuesAfterTheCall := by
  intro nnn s hlt
  obtain ⟨t, hcall, hpush, -, htsp, -, ht⟩ := callPushesTheReturnAddress nnn s hlt
  obtain ⟨u, hret, husp, hpop, hu⟩ := retPopsTheReturnAddress t (by omega)
  have hsp : u.sp.val = s.sp.val := by omega
  have hpc : u.pc = s.pc + 2 := by
    rw [hsp, hpush] at hpop
    exact (Option.some.inj hpop).symm
  refine ⟨t, u, hcall, hret, hpc, Fin.ext hsp, ?v, ?i, ?mem, ?fb⟩
  all_goals
    rw [hu, ht]
    rfl

/-! ### Skips (R87, R112 to R114) -/

/-- The target of a skip on equal bytes. -/
theorem skipTarget_beq (a b : Byte) (s : State) :
    skipTarget (a == b) s = if a = b then s.pc + 4 else s.pc + 2 := by
  by_cases h : a = b <;> simp [skipTarget, h]

/-- The target of a skip on different bytes. -/
theorem skipTarget_bne (a b : Byte) (s : State) :
    skipTarget (a != b) s = if a = b then s.pc + 2 else s.pc + 4 := by
  by_cases h : a = b <;> simp [skipTarget, h]

/-- Settles O31: the skips have no check and no write of their own. -/
theorem immediateSkips : Obligations.ImmediateSkips := by
  refine ⟨encoded_row (.seImm 0 0), encoded_row (.sneImm 0 0), fun x kk s => ⟨?se, ?sne⟩⟩
  case se =>
    rw [← skipTarget_beq]
    exact exec_of_ownCheck trivial
  case sne =>
    rw [← skipTarget_bne]
    exact exec_of_ownCheck trivial

/-- The mask 0x000F leaves the low nibble. -/
theorem toNat_and_low_nibble (op : Word) : (op &&& 0x000F).toNat = (fieldN op).toNat := by
  rw [fieldN_toNat, BitVec.toNat_and]
  exact Nat.and_two_pow_sub_one_eq_mod _ 4

theorem fieldN_ne_zero_of_and {op : Word} (h : op &&& 0x000F ≠ 0) : fieldN op ≠ 0 := by
  intro hn
  refine h (BitVec.eq_of_toNat_eq ?_)
  rw [toNat_and_low_nibble, hn]
  rfl

/-- Settles O32: the low nibbles of class 5 but 0 are in the unknown space (R79). -/
theorem equalRegistersSkip : Obligations.EqualRegistersSkip := by
  refine ⟨encoded_row (.seReg 0 0), fun op hrow hlow => ?unknown, fun x y s => ?skip⟩
  case unknown =>
    have hclass : classOf op = 0x5 := classOf_of_and hrow rfl
    have hn : fieldN op ∉ [0x0] := by simpa using fieldN_ne_zero_of_and hlow
    exact (decode_eq_none_iff_unknownFields op).2 (.inr (.inl ⟨hclass, hn⟩))
  case skip =>
    rw [← skipTarget_beq]
    exact exec_of_ownCheck trivial

/-! ### Immediate load and add (R115, R116) -/

/-- An instruction that only writes Vx and advances leaves every other register, VF among them (R21). -/
theorem advancedWriting_writeV (x : Reg) (b : Byte) (s : State) :
    AdvancedWriting (· = x) s (commit false (s.pc + 2) (writeV x b s)) :=
  ⟨fun _ hr => readV_writeV_of_ne b s (Ne.symm hr), rfl⟩

/-- Settles O34: both have no check, and one write, to Vx. -/
theorem immediateLoadAndAdd : Obligations.ImmediateLoadAndAdd := by
  refine ⟨encoded_row (.ldImm 0 0), encoded_row (.addImm 0 0), fun x kk s => ⟨?load, ?add⟩⟩
  case load =>
    have hexec : exec (.ldImm x kk) s = .next (completedState (.ldImm x kk) s) := exec_of_ownCheck trivial
    exact ⟨_, hexec, readV_writeV_self x kk s, advancedWriting_writeV x kk s⟩
  case add =>
    have hexec : exec (.addImm x kk) s = .next (completedState (.addImm x kk) s) := exec_of_ownCheck trivial
    have hsum : readV (completedState (.addImm x kk) s) x = readV s x + kk := readV_writeV_self x _ s
    refine ⟨_, hexec, ?_, advancedWriting_writeV x _ s⟩
    rw [hsum]
    exact BitVec.toNat_add _ _

end Sys2Proof.Machine

/-! ## The ALU family: class 8 (spec/42_family8_alu.md) -/

namespace Sys2Proof.Machine

/-! ### Copy and logic (R130 to R133) -/

/-- The answer of an instruction whose one write is to Vx: no flag, and no other register. -/
theorem exec_next_of_writeV {i : Instr} {x : Reg} {b : Byte} {s : State} (h : exec i s = advance (writeV x b s)) :
    ∃ t, exec i s = .next t ∧ readV t x = b ∧ AdvancedWriting (· = x) s t :=
  ⟨_, h, readV_writeV_self x b s, advancedWriting_writeV x b s⟩

/-- Settles O35: each writes Vx alone, and a bit of the result is the operation on that bit of the operands. -/
theorem copyAndLogicWriteOnlyVx : Obligations.CopyAndLogicWriteOnlyVx := by
  refine ⟨encoded_row (.ldReg 0 0), encoded_row (.or 0 0), encoded_row (.and 0 0), encoded_row (.xor 0 0),
    fun x y s => ⟨exec_next_of_writeV rfl, ?or, ?and, ?xor⟩⟩
  case or =>
    obtain ⟨t, hexec, hresult, hframe⟩ := exec_next_of_writeV (show exec (.or x y) s = _ from rfl)
    exact ⟨t, hexec, hframe, fun k => hresult ▸ BitVec.getLsbD_or⟩
  case and =>
    obtain ⟨t, hexec, hresult, hframe⟩ := exec_next_of_writeV (show exec (.and x y) s = _ from rfl)
    exact ⟨t, hexec, hframe, fun k => hresult ▸ BitVec.getLsbD_and⟩
  case xor =>
    obtain ⟨t, hexec, hresult, hframe⟩ := exec_next_of_writeV (show exec (.xor x y) s = _ from rfl)
    exact ⟨t, hexec, hframe, fun k => hresult ▸ BitVec.getLsbD_xor⟩

/-! ### The flags as bytes and numbers (R134 to R138) -/

theorem flagByte_carryFlag (a b : Byte) :
    flagByte (carryFlag a b) = if 255 < a.toNat + b.toNat then 1 else 0 := by
  simp [flagByte, carryFlag]

theorem flagByte_greaterFlag (a b : Byte) : flagByte (greaterFlag a b) = if b.toNat < a.toNat then 1 else 0 := by
  simp [flagByte, greaterFlag]

theorem flagByte_toNat (flag : Bool) : (flagByte flag).toNat = flag.toNat := by
  cases flag <;> rfl

/-- The bit a right shift drops is the remainder. -/
theorem flagByte_lowBitFlag_toNat (a : Byte) : (flagByte (lowBitFlag a)).toNat = a.toNat % 2 := by
  rw [flagByte_toNat, lowBitFlag, BitVec.getLsbD, Nat.toNat_testBit, pow_zero, Nat.div_one]

/-- The bit a left shift drops is the quotient by 128. -/
theorem flagByte_highBitFlag_toNat (a : Byte) : (flagByte (highBitFlag a)).toNat = a.toNat / 128 := by
  have := a.isLt
  rw [flagByte_toNat, highBitFlag, BitVec.getLsbD, Nat.toNat_testBit]
  omega

/-! ### The results as numbers (R135 to R138) -/

/-- The difference modulo 256, with the non-negative remainder. -/
theorem byte_sub_toNat (a b : Byte) : (a - b).toNat = (256 + a.toNat - b.toNat) % 256 := by
  have := b.isLt
  rw [BitVec.toNat_sub]
  congr 1
  omega

theorem byte_ushiftRight_one_toNat (a : Byte) : (a >>> 1).toNat = a.toNat / 2 := by
  rw [BitVec.toNat_ushiftRight, Nat.shiftRight_eq_div_pow, pow_one]

theorem byte_shiftLeft_one_toNat (a : Byte) : (a <<< 1).toNat = a.toNat * 2 % 256 := by
  rw [BitVec.toNat_shiftLeft, Nat.shiftLeft_eq, pow_one]

/-! ### The flag-writing instructions (R134 to R140, D8) -/

/-- The answer of an instruction that writes VF and then Vx: the result is in Vx whatever x is, because Vx is written
last; the flag is in VF unless that is Vx (D8). -/
theorem exec_next_of_writeFlagThenV {i : Instr} {x : Reg} {flag : Bool} {result : Byte} {s : State}
    (h : exec i s = advance (writeFlagThenV x flag result s)) :
    ∃ t, exec i s = .next t ∧ readV t x = result ∧ (x ≠ 0xF → readV t 0xF = flagByte flag) ∧
      AdvancedWriting (fun r => r = x ∨ r = 0xF) s t := by
  refine ⟨_, h, readV_writeV_self x result _, fun hx => ?flag,
    fun _ hr => readV_writeFlagThenV_of_ne flag result s hr, rfl⟩
  case flag => exact (readV_writeV_of_ne result _ hx).trans (readV_writeV_self regVF _ s)

/-- Settles O36: the sum of bytes is the sum modulo 256, and the carry flag compares the sum before the reduction. -/
theorem addRegistersSetsCarry : Obligations.AddRegistersSetsCarry := by
  intro x y s
  obtain ⟨t, hexec, hresult, hflag, hframe⟩ := exec_next_of_writeFlagThenV (show exec (.addReg x y) s = _ from rfl)
  exact ⟨t, hexec, hresult ▸ BitVec.toNat_add _ _, fun hx => (hflag hx).trans (flagByte_carryFlag _ _), hframe⟩

/-- Settles O37: SUBN is SUB with the operands exchanged, in the difference and in the comparison. -/
theorem subtractionsSetGreater : Obligations.SubtractionsSetGreater := by
  refine fun x y s => ⟨?sub, ?subn⟩
  case sub =>
    obtain ⟨t, hexec, hresult, hflag, hframe⟩ := exec_next_of_writeFlagThenV (show exec (.sub x y) s = _ from rfl)
    exact ⟨t, hexec, hresult ▸ byte_sub_toNat _ _, fun hx => (hflag hx).trans (flagByte_greaterFlag _ _), hframe⟩
  case subn =>
    obtain ⟨t, hexec, hresult, hflag, hframe⟩ := exec_next_of_writeFlagThenV (show exec (.subn x y) s = _ from rfl)
    exact ⟨t, hexec, hresult ▸ byte_sub_toNat _ _, fun hx => (hflag hx).trans (flagByte_greaterFlag _ _), hframe⟩

/-- Settles O38: the shifts read Vx alone, and the result and the flag are the quotient and the remainder of Vx. -/
theorem shiftsSetTheBitShiftedOut : Obligations.ShiftsSetTheBitShiftedOut := by
  refine fun x y s => ⟨?shr, ?shl⟩
  case shr =>
    obtain ⟨t, hexec, hresult, hflag, hframe⟩ := exec_next_of_writeFlagThenV (show exec (.shr x y) s = _ from rfl)
    exact ⟨t, hexec, hresult ▸ byte_ushiftRight_one_toNat _, fun hx => hflag hx ▸ flagByte_lowBitFlag_toNat _, hframe⟩
  case shl =>
    obtain ⟨t, hexec, hresult, hflag, hframe⟩ := exec_next_of_writeFlagThenV (show exec (.shl x y) s = _ from rfl)
    exact ⟨t, hexec, hresult ▸ byte_shiftLeft_one_toNat _, fun hx => hflag hx ▸ flagByte_highBitFlag_toNat _, hframe⟩

/-- Settles O39: the results of O36 to O38 hold for every x, so for 0xF as well. -/
theorem vfAsDestinationKeepsTheResult : Obligations.VfAsDestinationKeepsTheResult := by
  intro y s _
  obtain ⟨tAdd, hadd, hsum, -, -⟩ := addRegistersSetsCarry 0xF y s
  obtain ⟨⟨tSub, hsub, hdiff, -, -⟩, tSubn, hsubn, hrdiff, -, -⟩ := subtractionsSetGreater 0xF y s
  obtain ⟨⟨tShr, hshr, hright, -, -⟩, tShl, hshl, hleft, -, -⟩ := shiftsSetTheBitShiftedOut 0xF y s
  exact ⟨⟨tAdd, hadd, hsum⟩, ⟨tSub, hsub, hdiff⟩, ⟨tShr, hshr, hright⟩, ⟨tSubn, hsubn, hrdiff⟩, ⟨tShl, hshl, hleft⟩⟩

end Sys2Proof.Machine

/-! ## The miscellaneous family: classes 9 to D (spec/43_family9-D_misc.md) -/

namespace Sys2Proof.Machine

/-! ### Skip, index load, indexed jump and random byte (R150 to R153) -/

/-- Settles O33: as for class 5, the low nibbles of class 9 but 0 are in the unknown space (R79, D6). -/
theorem unequalRegistersSkip : Obligations.UnequalRegistersSkip := by
  refine ⟨encoded_row (.sneReg 0 0), fun op hrow hlow => ?unknown, fun x y s => ?skip⟩
  case unknown =>
    have hclass : classOf op = 0x9 := classOf_of_and hrow rfl
    have hn : fieldN op ∉ [0x0] := by simpa using fieldN_ne_zero_of_and hlow
    exact (decode_eq_none_iff_unknownFields op).2 (.inr (.inr (.inr (.inl ⟨hclass, hn⟩))))
  case skip =>
    rw [← skipTarget_bne]
    exact exec_of_ownCheck trivial

/-- Settles O40: Annn has no check, and its one write is the zero-extended field. -/
theorem loadIndexSetsI : Obligations.LoadIndexSetsI := by
  refine ⟨encoded_row (.ldI 0), fun nnn s => ?_⟩
  have hexec : exec (.ldI nnn) s = .next (completedState (.ldI nnn) s) := exec_of_ownCheck trivial
  exact ⟨_, hexec, zextAddr_toNat nnn, zextAddr_le nnn, rfl⟩

/-- Settles O41: the check of Bnnn bounds the target, so the jump's 16 bits hold it (R152). -/
theorem indexedJumpOrFault : Obligations.IndexedJumpOrFault := by
  refine ⟨fun nnn s hle => ?jump, fun nnn s hlt => ?fault⟩
  case jump =>
    have hexec : exec (.jpV0 nnn) s = .next (completedState (.jpV0 nnn) s) := exec_of_ownCheck hle
    have hpc : (nextPc (.jpV0 nnn) s).toNat = nnn.toNat + (readV s 0).toNat :=
      toNat_ofNat_of_le hle (by decide)
    exact ⟨_, hexec, hpc, rfl⟩
  case fault =>
    have hop : encode (.jpV0 nnn) = 0xB000 ||| zextAddr nnn := packNnn_eq_or 0xB nnn
    rw [← hop]
    exact if_neg hlt.not_ge

/-- Settles O42: Cxkk has no check, and a bit of the draw survives only where kk has it (R153). -/
theorem randomByteIsMasked : Obligations.RandomByteIsMasked := by
  intro x kk s
  have hexec : exec (.rnd x kk) s = .next (completedState (.rnd x kk) s) := exec_of_ownCheck trivial
  have hresult : readV (completedState (.rnd x kk) s) x = Config.randomByte s.draws &&& kk :=
    readV_writeV_self x _ { s with draws := s.draws + 1 }
  refine ⟨_, hexec, hresult, fun k hk => ?masked, fun r hr => readV_writeV_of_ne _ _ hr.symm, rfl⟩
  case masked => rw [hresult, BitVec.getLsbD_and, hk, Bool.and_false]

theorem ownWrites_draws {i : Instr} (s : State) (hrnd : ∀ x kk, i ≠ .rnd x kk) : (ownWrites i s).draws = s.draws := by
  cases i with
  | rnd x kk => exact absurd rfl (hrnd x kk)
  | _ => rfl

/-- Settles O20: of all own writes, only those of Cxkk reach the count of draws. -/
theorem onlyRndDrawsRandomBytes : Obligations.OnlyRndDrawsRandomBytes := by
  intro i s t h
  rcases exec_next_cases h with ⟨-, rfl⟩ | ⟨x, rfl, rfl⟩
  · refine ⟨fun x kk hi => ?rnd, ownWrites_draws s⟩
    case rnd =>
      subst hi
      rfl
  · exact ⟨fun _ _ hi => (nomatch hi), fun _ => rfl⟩

/-! ### Drawing (R154 to R160) -/

theorem flagByte_eq_one_iff (flag : Bool) : flagByte flag = 1 ↔ flag = true := by
  cases flag <;> decide

theorem flagByte_eq_one_or_zero (flag : Bool) : flagByte flag = 1 ∨ flagByte flag = 0 := by
  cases flag <;> decide

/-- The bytes read at I are the sprite the statements speak of, cell by cell (R154 to R156). -/
theorem spriteHit_spriteBytes_iff (s : State) (x y : Reg) (n : Nibble) (cx : Fin 64) (cy : Fin 32) :
    SpriteHit (readV s x).toNat (readV s y).toNat (spriteBytes s n) cx cy ↔ SpriteSets s x y n cx cy := by
  have hlen : (spriteBytes s n).length = n.toNat := length_memReadList _ _ _
  have hbyte (row : Nat) (h : row < (spriteBytes s n).length) :
      (spriteBytes s n)[row] = memRead s.mem (s.i.toNat + row) := getElem_memReadList _ _ _ _ h
  constructor
  · rintro ⟨row, hrow, hy, col, hcol, hbit, hx⟩
    rw [hbyte] at hbit
    exact ⟨row, col, hlen ▸ hrow, List.mem_range.1 hcol, hbit, hx, (wrapRow_eq_iff _ _).1 hy⟩
  · rintro ⟨row, col, hrow, hcol, hbit, hx, hy⟩
    have hrow' : row < (spriteBytes s n).length := hlen.symm ▸ hrow
    exact ⟨row, hrow', (wrapRow_eq_iff _ _).2 hy, col, List.mem_range.2 hcol, hbyte row hrow' ▸ hbit, hx⟩

/-- The drawing loop of Dxyn, of at most 15 rows, XORs exactly the sprite's cells and collides where one was 1. -/
theorem drawn_drawnSprite (x y : Reg) (n : Nibble) (s : State) :
    Drawn (SpriteSets s x y n) (s.fb, false) (drawnSprite x y n s) := by
  have hlen : (spriteBytes s n).length ≤ 32 := by
    have hn : n.toNat < 16 := n.isLt
    rw [spriteBytes, length_memReadList]
    omega
  exact (drawn_congr (spriteHit_spriteBytes_iff s x y n)).1 (drawn_drawSprite _ _ _ hlen _)

/-- Settles O43: the committed framebuffer and flag are those of the drawing loop. -/
theorem drawXorsTheSpriteAndReportsCollision : Obligations.DrawXorsTheSpriteAndReportsCollision := by
  intro x y n s hrange
  have hexec : exec (.drw x y n) s = .next (completedState (.drw x y n) s) :=
    exec_of_ownCheck ((inRange_iff _ _).2 hrange)
  have hflag : readV (completedState (.drw x y n) s) 0xF = flagByte (drawnSprite x y n s).2 :=
    readV_writeV_self regVF _ { s with fb := (drawnSprite x y n s).1 }
  obtain ⟨hcells, hcollision⟩ := drawn_drawnSprite x y n s
  refine ⟨_, hexec, hcells, ?vfBit, ?vfCollision, fun r hr => readV_writeV_of_ne _ _ hr.symm,
    drawPort_commit _ _ _, rfl⟩
  case vfBit =>
    rw [hflag]
    exact flagByte_eq_one_or_zero _
  case vfCollision =>
    rw [hflag, flagByte_eq_one_iff, hcollision]
    simp

/-- Settles O44: the range check passes with no byte to read, and the loop over no rows is the identity (R160, D14). -/
theorem drawOfNoRowsOnlyClearsVf : Obligations.DrawOfNoRowsOnlyClearsVf := by
  intro x y s
  have hexec : exec (.drw x y 0) s = .next (completedState (.drw x y 0) s) :=
    exec_of_ownCheck ((inRange_iff _ _).2 (.inl rfl))
  have hvf : readV (completedState (.drw x y 0) s) 0xF = 0 := readV_writeV_self regVF 0 s
  exact ⟨_, hexec, rfl, hvf, drawPort_commit _ _ _, fun r hr => readV_writeV_of_ne 0 s hr.symm, rfl⟩

/-- Which cells a sprite sets depends on I, on memory and on the two coordinates alone. -/
theorem spriteSets_congr {s t : State} {x y : Reg} (hi : t.i = s.i) (hmem : t.mem = s.mem)
    (hx : readV t x = readV s x) (hy : readV t y = readV s y) (n : Nibble) (cx : Fin 64) (cy : Fin 32) :
    SpriteSets t x y n cx cy ↔ SpriteSets s x y n cx cy := by
  rw [SpriteSets, SpriteSets, hi, hmem, hx, hy]

/-- Settles O45: the first draw keeps I, memory and both coordinates, so the second XORs the same cells; it collides
where the first left a 1, which is where a set bit met a 0. -/
theorem drawTwiceRestoresTheFramebuffer : Obligations.DrawTwiceRestoresTheFramebuffer := by
  intro x y n s hx hy hrange
  obtain ⟨t, hdraw, hcells, -, -, hregs, -, ht⟩ := drawXorsTheSpriteAndReportsCollision x y n s (.inr hrange)
  have hi : t.i = s.i := by rw [ht]; rfl
  have hmem : t.mem = s.mem := by rw [ht]; rfl
  obtain ⟨u, hredraw, hcells', -, hvf, -⟩ :=
    drawXorsTheSpriteAndReportsCollision x y n t (.inr (hi ▸ hrange))
  have hsame := spriteSets_congr hi hmem (hregs x hx) (hregs y hy) n
  refine ⟨t, u, hdraw, hredraw, framebuffer_ext fun cx cy => ?restored, ?collision⟩
  case restored =>
    rw [Bool.eq_iff_iff, hcells', hcells, hsame]
    tauto
  case collision =>
    rw [hvf]
    refine exists_congr fun cx => exists_congr fun cy => ?_
    rw [hsame, hcells, ← Bool.not_eq_true]
    tauto

end Sys2Proof.Machine

/-! ## The keypad family: class E (spec/44_familyE_keypad_skip.md) -/

namespace Sys2Proof.Machine

/-- The key check of Ex9E and ExA1, on the index as a number (R172, D7). -/
theorem keyInDomain_iff (b : Byte) : keyInDomain b = true ↔ b.toNat ≤ 0xF := decide_eq_true_iff

/-- The target of a skip on a Boolean condition. -/
theorem skipTarget_eq_ite (condition : Bool) (s : State) :
    skipTarget condition s = if condition = true then s.pc + 4 else s.pc + 2 := by
  cases condition <;> rfl

/-- The target of a skip on the negated condition. -/
theorem skipTarget_not (condition : Bool) (s : State) :
    skipTarget (!condition) s = if condition = true then s.pc + 2 else s.pc + 4 := by
  cases condition <;> rfl

/-- Settles O46: an index of one of the 16 keys is the check of both, and neither has a write of its own. -/
theorem keySkips : Obligations.KeySkips := by
  intro x s k hk
  have hcheck : keyInDomain (readV s x) = true := (keyInDomain_iff _).2 (hk ▸ Nat.le_of_lt_succ k.isLt)
  have hkey : keyPressed s (readV s x).toNat = s.key[k] :=
    (congrArg (keyPressed s) hk).trans (keyPressed_eq s k)
  rw [← hkey, ← skipTarget_eq_ite, ← skipTarget_not]
  exact ⟨exec_of_ownCheck (i := .skp x) hcheck, exec_of_ownCheck (i := .sknp x) hcheck⟩

/-- Settles O47: an index above 0x0F fails the check of both, and the fault carries it (D7). -/
theorem keyIndexAboveFFaults : Obligations.KeyIndexAboveFFaults := by
  intro x s hlt
  have hcheck : ¬ keyInDomain (readV s x) = true := mt (keyInDomain_iff _).1 hlt.not_ge
  exact ⟨if_neg hcheck, if_neg hcheck⟩

end Sys2Proof.Machine

/-! ## The timer, index and memory family: class F (spec/45_familyF_timers_index_memory.md) -/

namespace Sys2Proof.Machine

/-! ### The timers along a run of completed instructions (R182, R183, R215, R216) -/

/-- The own write to DT is the one of Fx15 (R182). -/
theorem ownWrites_dt (i : Instr) (s : State) : (ownWrites i s).dt = delayBeforeDecay i s := by
  cases i <;> rfl

/-- The own write to ST is the one of Fx18 (R183). -/
theorem ownWrites_st (i : Instr) (s : State) : (ownWrites i s).st = soundBeforeDecay i s := by
  cases i <;> rfl

theorem delayBeforeDecay_of_ne {i : Instr} (s : State) (h : ∀ x, i ≠ .ldDtVx x) : delayBeforeDecay i s = s.dt := by
  cases i with
  | ldDtVx x => exact absurd rfl (h x)
  | _ => rfl

theorem soundBeforeDecay_of_ne {i : Instr} (s : State) (h : ∀ x, i ≠ .ldStVx x) : soundBeforeDecay i s = s.st := by
  cases i with
  | ldStVx x => exact absurd rfl (h x)
  | _ => rfl

/-- A next state that shows COMPLETED is the one of a completed instruction, not of a BLOCKED Fx0A (R34). -/
theorem eq_completedState_of_result {i : Instr} {s t : State} {draw : Bool} (h : exec i s = .next t)
    (hresult : t.result = .completed draw) : t = completedState i s := by
  rcases exec_next_cases h with ⟨-, ht⟩ | ⟨x, -, rfl⟩
  · exact ht
  · cases hresult

/-- Both timers after a completed instruction: what its own writes leave in them, decayed once (R215). -/
theorem timers_of_completed {i : Instr} {s t : State} {draw : Bool} (h : exec i s = .next t)
    (hresult : t.result = .completed draw) :
    t.dt.toNat = (delayBeforeDecay i s).toNat - 1 ∧ t.st.toNat = (soundBeforeDecay i s).toNat - 1 := by
  rw [eq_completedState_of_result h hresult, completedState, commit_dt, commit_st, ownWrites_dt, ownWrites_st,
    decay_toNat, decay_toNat]
  exact ⟨rfl, rfl⟩

/-- A timer that each step leaves one below what the step had written in it, floor 0, when only the first step writes
it: it has lost one with each step (R216). -/
theorem timer_eq_sub_of_decays {timer written : Nat → Nat} {n : Nat}
    (hdecay : ∀ k, k ≤ n → timer (k + 1) = written k - 1) (hkept : ∀ k, k < n → written (k + 1) = timer (k + 1)) :
    timer (n + 1) = written 0 - (n + 1) := by
  induction n with
  | zero => exact hdecay 0 le_rfl
  | succ n ih =>
    have hn := ih (fun k hk => hdecay k (Nat.le_succ_of_le hk)) fun k hk => hkept k (Nat.lt_succ_of_lt hk)
    rw [hdecay (n + 1) le_rfl, hkept n n.lt_succ_self, hn, Nat.sub_sub]

/-- `sound_on` on the timer as a number (R36, D21). -/
theorem soundOn_iff (s : State) : soundOn s = true ↔ 0 < s.st.toNat := by
  rw [soundOn, bne_iff_ne, Nat.pos_iff_ne_zero, ne_eq, ne_eq, ← BitVec.toNat_inj]
  rfl

/-- Settles O49: the first instruction sets the timer and each completed one, the first included, decays it. -/
theorem setTimersCountDown : Obligations.SetTimersCountDown := by
  refine ⟨fun x s => ?setDelay, fun x s => ?setSound, fun x instrs run n hrun => ?countDown⟩
  case setDelay =>
    have hexec : exec (.ldDtVx x) s = .next (completedState (.ldDtVx x) s) := exec_of_ownCheck trivial
    exact ⟨_, hexec, decay_toNat _, rfl⟩
  case setSound =>
    have hexec : exec (.ldStVx x) s = .next (completedState (.ldStVx x) s) := exec_of_ownCheck trivial
    have hst : (completedState (.ldStVx x) s).st.toNat = (readV s x).toNat - 1 := decay_toNat _
    refine ⟨_, hexec, hst, ?_, rfl⟩
    rw [soundOn_iff, hst, Nat.sub_pos_iff_lt]
  case countDown =>
    have hdecay (k : Nat) (hk : k ≤ n) :
        (run (k + 1)).dt.toNat = (delayBeforeDecay (instrs k) (run k)).toNat - 1 ∧
        (run (k + 1)).st.toNat = (soundBeforeDecay (instrs k) (run k)).toNat - 1 := by
      obtain ⟨hexec, draw, hresult⟩ := hrun k hk
      exact timers_of_completed hexec hresult
    refine ⟨fun hset hothers => ?delay, fun hset hothers => ?sound⟩
    case delay =>
      have hfirst : delayBeforeDecay (instrs 0) (run 0) = readV (run 0) x := by rw [hset]; rfl
      rw [← hfirst]
      exact timer_eq_sub_of_decays (timer := fun k => (run k).dt.toNat) (fun k hk => (hdecay k hk).1)
        fun k _ => congrArg BitVec.toNat (delayBeforeDecay_of_ne _ (hothers k))
    case sound =>
      have hfirst : soundBeforeDecay (instrs 0) (run 0) = readV (run 0) x := by rw [hset]; rfl
      rw [← hfirst]
      exact timer_eq_sub_of_decays (timer := fun k => (run k).st.toNat) (fun k hk => (hdecay k hk).2)
        fun k _ => congrArg BitVec.toNat (soundBeforeDecay_of_ne _ (hothers k))

/-- Settles O48: Fx07 has no check, and DT is read from the state that the decay then changes. -/
theorem delayTimerIsReadBeforeTheDecay : Obligations.DelayTimerIsReadBeforeTheDecay := by
  refine ⟨encoded_row (.ldVxDt 0), fun x s => ?_⟩
  have hexec : exec (.ldVxDt x) s = .next (completedState (.ldVxDt x) s) := exec_of_ownCheck trivial
  exact ⟨_, hexec, readV_writeV_self x s.dt s, decay_toNat s.dt, advancedWriting_writeV x s.dt s⟩

/-! ### The key wait (R181) -/

/-- The scan finds no key where none is pressed. -/
theorem highestKey_eq_none {s : State} (h : ∀ k : Fin 16, s.key[k] = false) : highestKey s = none := by
  rcases highestKey_cases s with ⟨hnone, -⟩ | ⟨k, -, hk, hpressed, -⟩
  · exact hnone
  · rw [keyPressed_eq s ⟨k, hk⟩, h] at hpressed
    cases hpressed

/-- The scan finds the pressed key above which none is pressed. -/
theorem highestKey_eq_some {s : State} {k : Fin 16} (hk : s.key[k] = true)
    (habove : ∀ j : Fin 16, k < j → s.key[j] = false) : highestKey s = some k.val := by
  rcases highestKey_cases s with ⟨hnone, -⟩ | ⟨j, hj, hlt, hpressed, hlast⟩
  · exact absurd hnone (highestKey_ne_none_of_key hk)
  · have hkj : ¬ j < k.val := fun hjk => by
      cases (hlast k.val hjk k.isLt).symm.trans ((keyPressed_eq s k).trans hk)
    have hjk : ¬ k.val < j := fun hkj => by
      cases (habove ⟨j, hlt⟩ hkj).symm.trans ((keyPressed_eq s ⟨j, hlt⟩).symm.trans hpressed)
    rw [hj, Nat.le_antisymm (Nat.le_of_not_lt hjk) (Nat.le_of_not_lt hkj)]

/-- Settles O50: the scan's answer decides between BLOCKED and the write of Vx. -/
theorem waitForKeyTakesTheHighestKey : Obligations.WaitForKeyTakesTheHighestKey := by
  refine ⟨encoded_row (.ldVxK 0), fun x s hnone => ?blocked, fun x s k hk habove => ?key⟩
  case blocked =>
    exact ((exec_ldVxK_cases x s).resolve_left fun hcompleted => hcompleted.1 (highestKey_eq_none hnone)).2
  case key =>
    have hexec : exec (.ldVxK x) s = advance (writeV x (BitVec.ofNat 8 k.val) s) := by
      simp only [exec, execLdVxK, highestKey_eq_some hk habove]
    obtain ⟨t, ht, hread, hframe⟩ := exec_next_of_writeV hexec
    exact ⟨t, ht, hread ▸ toNat_ofNat_of_le (Nat.le_of_lt_succ k.isLt) (by decide), hframe⟩

/-! ### Index arithmetic (R184, R185) -/

theorem flagByte_indexOverflow (sum : Nat) : flagByte (indexOverflow sum) = if 0xFFF < sum then 1 else 0 := by
  simp only [flagByte, indexOverflow, decide_eq_true_eq]
  rfl

/-- A completed Fx1E, under either parameter value: I gets the sum modulo 4096 and VF whether it passes 0xFFF. -/
theorem exec_addIVx_next {x : Reg} {s : State} (h : ownCheck (.addIVx x) s) :
    ∃ t, exec (.addIVx x) s = .next t ∧ t.i.toNat = (s.i.toNat + (readV s x).toNat) % 4096 ∧
      readV t 0xF = (if 0xFFF < s.i.toNat + (readV s x).toNat then 1 else 0) ∧
      (∀ r, r ≠ 0xF → readV t r = readV s r) ∧ t = commit false (s.pc + 2) { s with v := t.v, i := t.i } := by
  have hmod : indexSum s x % 4096 ≤ 4095 := Nat.le_of_lt_succ (Nat.mod_lt _ (by decide))
  have hflag : readV (completedState (.addIVx x) s) 0xF = flagByte (indexOverflow (indexSum s x)) :=
    readV_writeV_self regVF _ s
  exact ⟨_, exec_of_ownCheck h, toNat_ofNat_of_le hmod (by decide), hflag.trans (flagByte_indexOverflow _),
    fun r hr => readV_writeV_of_ne _ s hr.symm, rfl⟩

/-- Settles O51: WRAP passes the check of Fx1E whatever the sum is. -/
theorem addIndexWraps : Obligations.AddIndexWraps :=
  fun _ _ hwrap => exec_addIVx_next (.inl hwrap)

/-- Settles O52: a sum inside memory passes the check of Fx1E, is its own remainder and clears VF; a larger one fails
the check under FAULT. -/
theorem addIndexFaultsUnderTheOtherParameter : Obligations.AddIndexFaultsUnderTheOtherParameter := by
  refine ⟨fun x s _ hle => ?inside, fun x s hparam hlt => ?past⟩
  case inside =>
    obtain ⟨t, hexec, hi, hvf, hframe⟩ := exec_addIVx_next (x := x) (s := s) (.inr (decide_eq_false hle.not_gt))
    exact ⟨t, hexec, hi.trans (Nat.mod_eq_of_lt (Nat.lt_succ_of_le hle)), hvf.trans (if_neg hle.not_gt), hframe⟩
  case past =>
    have hover : indexOverflow (indexSum s x) = true := decide_eq_true hlt
    simp only [exec, execAddIVx, hparam, hover]
    rfl

/-- Settles O53: Fx29 has no check, and five times a byte fits I. -/
theorem digitSpriteAddressIsFiveTimesVx : Obligations.DigitSpriteAddressIsFiveTimesVx := by
  intro x s
  have hexec : exec (.ldFVx x) s = .next (completedState (.ldFVx x) s) := exec_of_ownCheck trivial
  exact ⟨_, hexec, digitAddr_toNat _, rfl⟩

/-! ### Stores and loads (R186 to R188) -/

/-- Settles O54: the three stored bytes read back, and a digit fits a byte. -/
theorem decimalDigitsAreStored : Obligations.DecimalDigitsAreStored := by
  intro x s hwf hrange
  have hin : s.i.toNat + 3 ≤ 4096 := Nat.succ_le_succ hrange
  have hexec : exec (.ldBVx x) s = .next (completedState (.ldBVx x) s) :=
    exec_of_ownCheck ((inRange_iff _ _).2 (.inr hin))
  have hdigit {k d : Nat} (hk : k < 3) (hd : (decimalDigits (readV s x))[k] = BitVec.ofNat 8 d) (hle : d ≤ 255) :
      (memRead (completedState (.ldBVx x) s).mem (s.i.toNat + k)).toNat = d := by
    have hread : memRead (completedState (.ldBVx x) s).mem (s.i.toNat + k) = (decimalDigits (readV s x))[k] :=
      memRead_memWriteList hwf hin hk
    rw [hread, hd, toNat_ofNat_of_le hle (by decide)]
  have hv : (readV s x).toNat < 256 := (readV s x).isLt
  exact ⟨_, hexec, hdigit (k := 0) (by decide) rfl (by omega), hdigit (k := 1) (by decide) rfl (by omega),
    hdigit (k := 2) (by decide) rfl (by omega), fun _ ha => memRead_memWriteList_of_out ha, rfl⟩

/-- Settles O55: the stored bytes are those of V0 to Vx. -/
theorem registersAreStoredFromI : Obligations.RegistersAreStoredFromI := by
  intro x s hwf hrange
  have hlen : (regBytes s x).length = x.val + 1 := length_regBytes s x
  have hin : s.i.toNat + (x.val + 1) ≤ 4096 := Nat.succ_le_succ hrange
  have hexec : exec (.ldIVx x) s = .next (completedState (.ldIVx x) s) :=
    exec_of_ownCheck ((inRange_iff _ _).2 (.inr hin))
  refine ⟨_, hexec, fun k hk => ?stored, fun a ha => ?others, rfl⟩
  case stored =>
    have hk' : k.val < (regBytes s x).length := hlen ▸ Nat.lt_succ_of_le hk
    exact (memRead_memWriteList hwf (hlen ▸ hin) hk').trans (getElem_regBytes s x k.val hk' k.isLt)
  case others => exact memRead_memWriteList_of_out (ha.imp_right (hlen ▸ ·))

/-- Loading bytes into V0 to Vx gives each of them its byte (R188). -/
theorem getElem_setRegs_of_le {v : Vector Byte 16} {bs : List Byte} {x k : Reg} (hlen : bs.length = x.val + 1)
    (hk : k.val ≤ x.val) : (setRegs v 0 bs)[k] = bs[k.val] := by
  have h := getElem_setRegs v 0 bs k.val k.isLt
  rwa [dif_pos (by omega)] at h

/-- Settles O56: the loaded bytes are those from I upward, and Fx65 has no other write. -/
theorem registersAreLoadedFromI : Obligations.RegistersAreLoadedFromI := by
  intro x s hrange
  have hlen : (memReadList s.mem s.i.toNat (x.val + 1)).length = x.val + 1 := length_memReadList _ _ _
  have hexec : exec (.ldVxI x) s = .next (completedState (.ldVxI x) s) :=
    exec_of_ownCheck ((inRange_iff _ _).2 (.inr (Nat.succ_le_succ hrange)))
  refine ⟨_, hexec, fun k hk => ?loaded, fun r hr => ?others, rfl⟩
  case loaded => exact (getElem_setRegs_of_le hlen hk).trans (getElem_memReadList _ _ _ _ _)
  case others => exact getElem_setRegs_of_lt hlen hr

end Sys2Proof.Machine

/-! ## The exceptions family: fault records and the timers' decay (spec/60_exceptions.md) -/

namespace Sys2Proof.Machine

/-! ### The record and the code of a fault (R200, D2, D3) -/

/-- Every kind of fault has one of the codes of D2; 0 is none and 6 and 7 are unused. -/
theorem faultKind_mem_codes (f : Fault) : 1 ≤ (faultKind f).toNat ∧ (faultKind f).toNat ≤ 5 := by
  cases f <;> simp [faultKind]

/-- A fault that an instruction raises records its PC and its encoding (R200). -/
theorem faultRecord_of_exec {i : Instr} {s : State} {f : Fault} (h : exec i s = .fault f) :
    (faultRecord f).pc = s.pc ∧ (faultRecord f).opcode = encode i := by
  obtain ⟨kind, info, hkind, rfl⟩ := exec_fault_cases h
  rcases hkind with rfl | rfl | rfl | rfl <;> exact ⟨rfl, rfl⟩

/-- Settles O12, by the check that fails first: the fetch, which has no word yet; the decode, which records the word it
refuses; or the instruction's own, whose recorded encoding is the word it was decoded from. -/
theorem faultsRecordPcAndOpcode : Obligations.FaultsRecordPcAndOpcode := by
  intro s f h
  rw [← and_assoc]
  refine ⟨?_, faultKind_mem_codes f⟩
  rcases step_cases s with ⟨hpc, hs⟩ | ⟨hpc, -, hs⟩ | ⟨hpc, i, hd, hs⟩
  · cases hs.symm.trans h
    exact ⟨rfl, (if_neg hpc.not_ge).symm⟩
  · cases hs.symm.trans h
    exact ⟨rfl, (if_pos hpc).symm⟩
  · rw [if_pos hpc, ← encode_of_decode hd]
    exact faultRecord_of_exec (hs.symm.trans h)

/-! ### The decay at the end of a step (R215) -/

/-- A next state that shows BLOCKED is the state before but for the outcome, not one of a completed instruction
(R34, R181). -/
theorem eq_blocked_of_result {i : Instr} {s t : State} (h : exec i s = .next t) (hresult : t.result = .blocked) :
    t = { s with result := .blocked } := by
  rcases exec_next_cases h with ⟨-, rfl⟩ | ⟨x, -, ht⟩
  · cases hresult
  · exact ht

/-- Settles O22: a completed instruction decays what its own writes leave in the timers, a BLOCKED one changes nothing
but the outcome. -/
theorem timersDecayOnCompletion : Obligations.TimersDecayOnCompletion := by
  refine fun i s t h => ⟨fun draw hresult => timers_of_completed h hresult, fun hresult => ?_⟩
  rw [eq_blocked_of_result h hresult]
  exact ⟨rfl, rfl⟩

end Sys2Proof.Machine

/-! ## The reset family: construction, loading and the first step (spec/70_reset_and_hazards.md) -/

namespace Sys2Proof.Machine

/-! ### The state after construction (R230, R234) -/

theorem reset_stack (k : Fin 16) : State.reset.stack[k] = 0 := Vector.getElem_replicate k.isLt

/-- Settles O14: memory lists no cell, I and the stack entries are zero, and PC is 0x200. -/
theorem resetMeetsInvariant : Obligations.ResetMeetsInvariant := by
  have hmem : Memory.wf State.reset.mem := ⟨List.Pairwise.nil, nofun⟩
  refine ⟨hmem, Nat.zero_le _, fun k => ?_, by decide⟩
  rw [reset_stack]
  exact Nat.zero_le _

/-- Settles O8: the three vectors repeat one zero element, memory lists no cell, and the other fields are literals. -/
theorem resetZeroesAllButThePc : Obligations.ResetZeroesAllButThePc := by
  have hv (x : Reg) : readV State.reset x = 0 := Vector.getElem_replicate x.isLt
  have hkey (k : Fin 16) : State.reset.key[k] = false := Vector.getElem_replicate k.isLt
  exact ⟨hv, rfl, rfl, rfl, reset_stack, rfl, rfl, fun _ => rfl, pixel_replicate_zero, hkey, rfl, rfl⟩

/-- Every address holds the opcode 0x0000 after reset (R230). -/
theorem opcodeAt_reset (a : Nat) : opcodeAt State.reset.mem a = 0x0000 :=
  show opcodeOfBytes 0 0 = 0 by decide

/-- Settles O10: the fetch at 0x200 passes, and the word it reads is in the unknown space of R80. -/
theorem stepFromResetFaultsUnknown : Obligations.StepFromResetFaultsUnknown := by
  have hpc : State.reset.pc.toNat ≤ 0xFFE := by decide
  have hunknown : UnknownSpace 0x0000 := .inl (Nat.zero_le _)
  have hdecode : decode (opcodeAt State.reset.mem State.reset.pc.toNat) = none := by
    rw [opcodeAt_reset]
    exact (unknownSpace_iff_decode_eq_none _).1 hunknown
  have hstep := step_of_decode_none hpc hdecode
  rwa [opcodeAt_reset] at hstep

/-! ### Loading a byte image (R231, R233) -/

/-- An image that ends at or below 0xFFF is loaded: its bytes read back from `base` upward, and nothing else changes. -/
theorem loadImage_done {base : Nat} {image : List Byte} {s : State} (hs : Memory.wf s.mem)
    (hin : base + image.length ≤ 4096) :
    ∃ t, loadImage base image s = .done t ∧
      (∀ (k : Nat) (h : k < image.length), memRead t.mem (base + k) = image[k]) ∧
      (∀ a, a < base ∨ base + image.length ≤ a → memRead t.mem a = memRead s.mem a) ∧ t = { s with mem := t.mem } := by
  have hload : loadImage base image s = .done (storeBytes base image s) := if_pos ((inRange_iff _ _).2 (.inr hin))
  exact ⟨_, hload, fun _ hk => memRead_memWriteList hs hin hk, fun _ ha => memRead_memWriteList_of_out ha, rfl⟩

/-- A non-empty image that passes 0xFFF is a loader error (assumption log 14). -/
theorem loadImage_loaderError {base : Nat} {image : List Byte} (s : State) (hne : image.length ≠ 0)
    (hout : 4096 < base + image.length) : loadImage base image s = .loaderError := by
  refine if_neg fun hin => ?_
  rcases (inRange_iff _ _).1 hin with h0 | hle
  · exact hne h0
  · exact hle.not_gt hout

/-- Settles O60: a ROM is an image at 0x200, where 3584 bytes are left. -/
theorem romLoadsAtTheProgramStart : Obligations.RomLoadsAtTheProgramStart := by
  have hbase : Config.programStart.toNat = 0x200 := rfl
  refine ⟨fun rom s hs hlen => ?fits, fun rom s hlen => ?tooLong⟩
  case fits =>
    rw [loadRom, hbase]
    exact loadImage_done hs (by omega)
  case tooLong => exact loadImage_loaderError s (by omega) (by omega)

/-- Settles O9: the font is an image at 0x000, in the memory of the reset state, which reads 0 past it. -/
theorem constructionPlacesTheFont : Obligations.ConstructionPlacesTheFont := by
  intro overflow font hlen
  have hin : 0 + font.length ≤ 4096 := by rwa [Nat.zero_add]
  obtain ⟨hreset, -⟩ := resetMeetsInvariant
  obtain ⟨t, hload, hbytes, hothers, ht⟩ :=
    loadImage_done (s := { State.reset with fx1eOverflow := overflow }) hreset hin
  refine ⟨t, hload, fun k hk => ?font, fun a ha => ?past, ht⟩
  case font => rw [← hbytes k hk, Nat.zero_add]
  case past => exact hothers a (.inr (by rwa [Nat.zero_add]))

end Sys2Proof.Machine
